-- ==== Sys2Proof/Word.lean ====
section
/-! DEFINITION. The words of the block: the byte and the 16-bit number (spec/00_scope.md R8). Quantities the spec
counts with (`CNT`, `TIMER`, lengths, sums) are natural numbers and need no word type. -/
namespace Sys2Proof

/-- A byte, 0 to 255 (R8). -/
abbrev Byte := BitVec 8

/-- A 16-bit field: the length field, the device-id, the command key (R24). -/
abbrev Half := BitVec 16

end Sys2Proof
end

