-- ==== Sys2Proof/Config.lean ====
section
/-! DEFINITION. What is fixed for the life of the block: the constants of R4, the three OPEN parameters of R5, and the
data of the surrounding software that the source does not give (N3, N4, N18). Every open item is an opaque constant,
so that nothing can be proved from a value of it. -/
namespace Sys2Proof.Config

/-! ## The constants of R4 (unaudited literals, R9, U21: notes/assumptions/17.md) -/

/-- `HDR_LEN`: bytes in the header. -/
abbrev hdrLen : Nat := 9
/-- `LEN_BIAS`: length field = payload length + 5. -/
abbrev lenBias : Nat := 5
/-- `PRE_LEN`: bytes of a frame the length field does not count. -/
abbrev preLen : Nat := 5
/-- `MAX_FRAME`: the longest frame, and the capacity of the receive buffer. -/
abbrev maxFrame : Nat := 256
/-- `MAX_PAYLOAD`. -/
abbrev maxPayload : Nat := 246
/-- `MIN_FRAME`. -/
abbrev minFrame : Nat := 10
/-- `MAX_LEN_FIELD`. -/
abbrev maxLenField : Nat := 251
/-- `DIR_H2D`: direction marker host to device. -/
abbrev dirH2d : Byte := 0xAA#8
/-- `DIR_D2H`: direction marker device to host. -/
abbrev dirD2h : Byte := 0xAB#8
/-- `KEY_RESPONSE`: the reserved response key. -/
abbrev keyResponse : Half := 0xFFFF#16
/-- `KEY_READ_BIT`: set in the read variant of a parameter key. -/
abbrev keyReadBit : Half := 0x8000#16
/-- The set-pattern key (R64). -/
abbrev keySetPattern : Half := 0x0062#16
/-- Lowest low byte of a parameter key (R65). -/
abbrev paramLow : Byte := 0x61#8
/-- Highest low byte of a parameter key (R65). -/
abbrev paramHigh : Byte := 0xAB#8
/-- `DEADLINE` in seconds of wall-clock time; the block sees only ticks (R4, R15). -/
abbrev deadlineSeconds : Nat := 1

/-! ## The OPEN parameters of R5 (notes/assumptions/7.md) -/

/-- The order in which a `TICK` and a transport event of one clock cycle are presented (R124, D9). -/
inductive SameCycleOrder where
  | rxFirst
  | tickFirst
  deriving DecidableEq, Repr, Inhabited

/-- `DEADLINE_TICKS - 1`: any natural number (OPEN, D8). -/
opaque deadlineTicksLessOne : Nat

/-- `DEADLINE_TICKS`: at least 1 (R5). -/
def deadlineTicks : Nat := deadlineTicksLessOne + 1

/-- `RX_BEAT_MAX - 1`: 0 to 255 (OPEN, D3). -/
opaque rxBeatMaxLessOne : Fin 256

/-- `RX_BEAT_MAX`: 1 to 256 (R5). -/
def rxBeatMax : Nat := rxBeatMaxLessOne.val + 1

/-- `SAME_CYCLE_ORDER` (OPEN, D9). -/
opaque sameCycleOrder : SameCycleOrder

/-! ## The Command Registry of the surrounding software (R135 to R137; notes/assumptions/18.md) -/

/-- The literal-key family (R136). -/
inductive LiteralCommand where
  | setAddress | reset | readAddress | readEdid | readHotPlugStatus | readNativeTiming | readOutputStatus | response
  deriving DecidableEq, Repr

/-- The ten value tables (R139). -/
inductive ValueTable where
  | timing | pattern | colorspace | deepColorMode | outputType | audioSampleRate | audioWidth | audioChannelCount
  | binaryEnable | responseStatus
  deriving DecidableEq, Repr

/-- A parameter command: its name, the low byte of its base key, and its value table (R135, R137, R139; every parameter
command has a table, 00_scope.md's glossary). -/
structure ParamEntry where
  name : String
  base : Byte
  table : ValueTable
  deriving DecidableEq, Repr

/-- The set variant's key: the base key (R65, R137). -/
def ParamEntry.setKey (e : ParamEntry) : Half := e.base.zeroExtend 16

/-- The read variant's key: the base key with bit 0x8000 set (R65, R137). -/
def ParamEntry.readKey (e : ParamEntry) : Half := keyReadBit ||| e.setKey

/-- The registry: the wire key of every literal command, and the parameter commands, with what the source says of them.
The mapping is bidirectional and partitioned into the two families (R135), so no two commands share a key. -/
structure Registry where
  literalKey : LiteralCommand → Half
  params : List ParamEntry
  /-- R136: the one literal key given by value. -/
  response_key : literalKey .response = keyResponse
  /-- R135: no two literal commands share a key. -/
  literal_distinct : ∀ c d, literalKey c = literalKey d → c = d
  /-- R65, R137: the parameter range. -/
  params_range : ∀ e ∈ params, paramLow.toNat ≤ e.base.toNat ∧ e.base.toNat ≤ paramHigh.toNat
  /-- R135: no two parameter commands share a name or a key. -/
  params_distinct : params.Pairwise (fun e f => e.name ≠ f.name ∧ e.base ≠ f.base)
  /-- R135: no literal command has a parameter command's key. -/
  families_apart : ∀ c, ∀ e ∈ params, literalKey c ≠ e.setKey ∧ literalKey c ≠ e.readKey
  /-- R64, R137: set-pattern, the one parameter command given by value. -/
  has_pattern : ∃ e ∈ params, e.setKey = keySetPattern

/-- A registry that meets the conditions, so that they are not contradictory. Nothing else rests on it. -/
def sampleRegistry : Registry where
  literalKey
    | .response => keyResponse
    | .setAddress => 1
    | .reset => 2
    | .readAddress => 3
    | .readEdid => 4
    | .readHotPlugStatus => 5
    | .readNativeTiming => 6
    | .readOutputStatus => 7
  params := [⟨"", 0x62#8, .pattern⟩]
  response_key := rfl
  literal_distinct := by intro c d; cases c <;> cases d <;> decide
  params_range := by decide
  params_distinct := by decide
  families_apart := by intro c; cases c <;> decide
  has_pattern := by decide

/-- Some registry that meets the conditions: which one is open (N3). -/
opaque registryOpen [Inhabited Registry] : Registry

/-- The registry, a process-lifetime constant (R135): known only by the conditions of `Registry`. -/
def registry : Registry := @registryOpen ⟨sampleRegistry⟩

/-! ## The data of the surrounding software (spec/45, outside the block: notes/assumptions/18.md) -/

/-- The names of the literal commands as `describe` prints them (not in the source, N4). -/
opaque literalName : LiteralCommand → String

/-- The labels of a value table, but for index 0 of the response-status table (N4). -/
opaque tableLabels : ValueTable → List String

/-- Which bytes the dump shows as characters (N4). -/
opaque printable : Byte → Bool

/-- The character the dump shows for a byte of 0x80 or more that counts as printable: ASCII has none, and the source is
silent (notes/assumptions/24.md). -/
opaque highChar : Byte → Char

/-- The payload index of the group address, for set-address and for read-address each its own: N18 gives neither index
and no common layout (notes/assumptions/25.md). -/
opaque groupIndex : LiteralCommand → Nat

/-- The payload index of the device address, for each of the two commands (N18; notes/assumptions/25.md). -/
opaque deviceIndex : LiteralCommand → Nat

/-- Whether a hot-plug status byte means high (N18). -/
opaque hotPlugHigh : Byte → Bool

end Sys2Proof.Config
end

