-- ==== Sys2Proof/Machine/Bytes.lean ====
section
/-! DEFINITION. The notation of R8 over bytes: the two ways of assembling a 16-bit number, its two bytes, and the sum
of a byte sequence without wrap. -/
namespace Sys2Proof.Machine

/-- `u16le(b0, b1) = b0 + 256 * b1`: the first byte is the low byte (R8). -/
def u16le (b0 b1 : Byte) : Half := BitVec.ofNat 16 (b0.toNat + 256 * b1.toNat)

/-- `u16be(b0, b1) = 256 * b0 + b1`: the first byte is the high byte (R8). -/
def u16be (b0 b1 : Byte) : Half := BitVec.ofNat 16 (256 * b0.toNat + b1.toNat)

/-- `lo8(v) = v mod 256` (R8). -/
def lo8 (v : Nat) : Byte := BitVec.ofNat 8 (v % 256)

/-- `hi8(v) = (v div 256) mod 256` (R8). -/
def hi8 (v : Nat) : Byte := BitVec.ofNat 8 (v / 256 % 256)

/-- `sum(B)`: the sum of the bytes as a natural number, without wrap (R8). -/
def sumBytes : List Byte → Nat
  | [] => 0
  | b :: bs => b.toNat + sumBytes bs

end Sys2Proof.Machine
end

