-- ==== Sys2Proof/Machine/Checksum.lean ====
section
/-! DEFINITION. The checksum unit's functions (spec/40_checksum.md). -/
namespace Sys2Proof.Machine

/-- `CHECKSUM(B) = (256 - (sum(B) mod 256)) mod 256` (R80). -/
def checksumOf (bytes : List Byte) : Byte := BitVec.ofNat 8 ((256 - sumBytes bytes % 256) % 256)

/-- `VERIFY(B)`: the checksum of all bytes but the last equals the last. No value for the empty sequence (R81). -/
def verifyOf (bytes : List Byte) : Option Bool :=
  match bytes.getLast? with
  | none => none
  | some trailer => some (checksumOf bytes.dropLast == trailer)

/-- `(ACC + b) mod 256`: the carry out of bit 7 is dropped (R83). -/
def accAdd (acc b : Byte) : Byte := BitVec.ofNat 8 ((acc.toNat + b.toNat) % 256)

end Sys2Proof.Machine
end

