-- ==== Sys2Proof/Syntax.lean ====
section
/-! DEFINITION. The operations of the block: one constructor of `Instr` per row of spec/opcode_table.json, the header
of a frame, and `Request`, the form in which an outside agent presents an operation (R6, R67, R70). -/
namespace Sys2Proof

/-- The nine header bytes of a frame, in frame order (R50). -/
structure Header where
  dir : Byte
  devid1 : Byte
  devid2 : Byte
  lenLo : Byte
  lenHi : Byte
  group : Byte
  device : Byte
  cmdHi : Byte
  cmdLo : Byte
  deriving DecidableEq, Repr

/-- The header bytes at offsets 1 to 8: what a direction row leaves free (R70). -/
structure AfterDir where
  devid1 : Byte
  devid2 : Byte
  lenLo : Byte
  lenHi : Byte
  group : Byte
  device : Byte
  cmdHi : Byte
  cmdLo : Byte
  deriving DecidableEq, Repr

/-- The header bytes at offsets 0 to 6: what a key row leaves free (R70). -/
structure BeforeKey where
  dir : Byte
  devid1 : Byte
  devid2 : Byte
  lenLo : Byte
  lenHi : Byte
  group : Byte
  device : Byte
  deriving DecidableEq, Repr

/-- The rows of format `frame` of spec/opcode_table.json (R70). -/
inductive FrameRow where
  | dirH2d | dirD2h | keyResponse | keyParamSet | keyParamRead | keySetPattern | keyReadPattern | frame
  deriving DecidableEq, Repr

/-- The operation set. The first twelve are the operations of R67. The other eight stand for the `frame` rows: a frame
of that class is shown to the parser; `rest` is every byte after the nine header bytes (notes/assumptions/5.md). -/
inductive Instr where
  /-- R175. -/
  | reset
  /-- R114. -/
  | start
  /-- R115: a beat of bytes from the transport. -/
  | rxData (bytes : List Byte)
  /-- R116. -/
  | rxWouldBlock
  /-- R117. -/
  | rxError
  /-- R119. -/
  | tick
  /-- R82. -/
  | csClear
  /-- R83. -/
  | csAdd (b : Byte)
  /-- R80. -/
  | checksum (bytes : List Byte)
  /-- R81. -/
  | verify (bytes : List Byte)
  /-- R90. -/
  | encode (key : Half) (payload : List Byte)
  /-- R95. -/
  | decode (bytes : List Byte)
  /-- R101: byte 0 is 0xAA. -/
  | dirH2d (h : AfterDir) (rest : List Byte)
  /-- R101: byte 0 is 0xAB. -/
  | dirD2h (h : AfterDir) (rest : List Byte)
  /-- R63: the key is 0xFFFF. -/
  | keyResponse (h : BeforeKey) (rest : List Byte)
  /-- R65: the key's high byte is 0x00, its low byte is in the parameter range. -/
  | keyParamSet (h : BeforeKey) (cmdLo : Byte) (rest : List Byte)
  /-- R65: the key's high byte is 0x80, its low byte is in the parameter range. -/
  | keyParamRead (h : BeforeKey) (cmdLo : Byte) (rest : List Byte)
  /-- R64: the key is 0x0062. -/
  | keySetPattern (h : BeforeKey) (rest : List Byte)
  /-- R64: the key is 0x8062. -/
  | keyReadPattern (h : BeforeKey) (rest : List Byte)
  /-- R50: any header. -/
  | frame (h : Header) (rest : List Byte)
  deriving DecidableEq, Repr

/-- One request at the block's interface: a 4-bit operation code with its operands travelling beside it as bytes, or
the bytes of a frame shown to the parser (R67, R70; notes/assumptions/3.md). -/
inductive Request where
  | op (code : BitVec 4) (operands : List Byte)
  | frame (bytes : List Byte)
  deriving DecidableEq, Repr

/-- The requests that fall in one clock cycle, in no order of their own (R124). -/
abbrev Cycle := List Request

end Sys2Proof
end

