-- ==== Sys2Proof/Machine/FrameTable.lean ====
section
/-! DEFINITION. The `frame` rows of spec/opcode_table.json as masks and patterns over the nine header bytes (R70), the
rows a header matches, and the one row whose constructor stands for it. -/
namespace Sys2Proof

/-- The header as bytes in frame order (R50). -/
def Header.bytes (h : Header) : List Byte :=
  [h.dir, h.devid1, h.devid2, h.lenLo, h.lenHi, h.group, h.device, h.cmdHi, h.cmdLo]

/-- A header from a direction byte and the eight bytes after it. -/
def AfterDir.header (a : AfterDir) (dir : Byte) : Header :=
  ⟨dir, a.devid1, a.devid2, a.lenLo, a.lenHi, a.group, a.device, a.cmdHi, a.cmdLo⟩

/-- A header from its first seven bytes and the two key bytes. -/
def BeforeKey.header (b : BeforeKey) (cmdHi cmdLo : Byte) : Header :=
  ⟨b.dir, b.devid1, b.devid2, b.lenLo, b.lenHi, b.group, b.device, cmdHi, cmdLo⟩

/-- The header without its direction byte. -/
def Header.afterDir (h : Header) : AfterDir :=
  ⟨h.devid1, h.devid2, h.lenLo, h.lenHi, h.group, h.device, h.cmdHi, h.cmdLo⟩

/-- The header without its key. -/
def Header.beforeKey (h : Header) : BeforeKey :=
  ⟨h.dir, h.devid1, h.devid2, h.lenLo, h.lenHi, h.group, h.device⟩

end Sys2Proof

namespace Sys2Proof.Machine

/-- The command key of a header: high byte first (R57, R60). -/
def headerKey (h : Header) : Half := u16be h.cmdHi h.cmdLo

/-- The declared length `L` of a header: low byte first (R54, R60). -/
def headerLength (h : Header) : Half := u16le h.lenLo h.lenHi

/-- Whether a low key byte is in the parameter range 0x61 to 0xAB (R65). -/
def inParamRange (b : Byte) : Bool := decide (Config.paramLow.toNat ≤ b.toNat ∧ b.toNat ≤ Config.paramHigh.toNat)

/-- A row's `mask` and `match`, one byte per header byte, frame offset 0 first, and whether the row bounds the low key
byte by the parameter range (R70 (b)). -/
structure RowPattern where
  mask : List Byte
  value : List Byte
  ranged : Bool
  deriving DecidableEq, Repr

/-- The patterns of spec/opcode_table.json; the row FRAME fixes no bit (R70 (c)). -/
def rowPattern : FrameRow → RowPattern
  | .dirH2d => ⟨[0xFF, 0, 0, 0, 0, 0, 0, 0, 0], [0xAA, 0, 0, 0, 0, 0, 0, 0, 0], false⟩
  | .dirD2h => ⟨[0xFF, 0, 0, 0, 0, 0, 0, 0, 0], [0xAB, 0, 0, 0, 0, 0, 0, 0, 0], false⟩
  | .keyResponse => ⟨[0, 0, 0, 0, 0, 0, 0, 0xFF, 0xFF], [0, 0, 0, 0, 0, 0, 0, 0xFF, 0xFF], false⟩
  | .keyParamSet => ⟨[0, 0, 0, 0, 0, 0, 0, 0xFF, 0], [0, 0, 0, 0, 0, 0, 0, 0, 0], true⟩
  | .keyParamRead => ⟨[0, 0, 0, 0, 0, 0, 0, 0xFF, 0], [0, 0, 0, 0, 0, 0, 0, 0x80, 0], true⟩
  | .keySetPattern => ⟨[0, 0, 0, 0, 0, 0, 0, 0xFF, 0xFF], [0, 0, 0, 0, 0, 0, 0, 0, 0x62], false⟩
  | .keyReadPattern => ⟨[0, 0, 0, 0, 0, 0, 0, 0xFF, 0xFF], [0, 0, 0, 0, 0, 0, 0, 0x80, 0x62], false⟩
  | .frame => ⟨[0, 0, 0, 0, 0, 0, 0, 0, 0], [0, 0, 0, 0, 0, 0, 0, 0, 0], false⟩

/-- `(bytes AND mask) = match`, byte by byte. -/
def maskedEq : List Byte → List Byte → List Byte → Bool
  | b :: bs, m :: ms, v :: vs => (b &&& m) == v && maskedEq bs ms vs
  | [], [], [] => true
  | _, _, _ => false

/-- "the row applies when `(header AND mask) = match`", and the low key byte is in the row's range (R70 (b)). -/
def rowApplies (r : FrameRow) (h : Header) : Bool :=
  maskedEq h.bytes (rowPattern r).mask (rowPattern r).value && (!(rowPattern r).ranged || inParamRange h.cmdLo)

/-- The frame rows in the table's order. -/
def frameRows : List FrameRow :=
  [.dirH2d, .dirD2h, .keyResponse, .keyParamSet, .keyParamRead, .keySetPattern, .keyReadPattern, .frame]

/-- Every row that applies to a header: a frame may match several (R70 (b)). -/
def rowsOf (h : Header) : List FrameRow := frameRows.filter (rowApplies · h)

/-- The one row whose constructor stands for a header: an exact key, then a key range, then a direction, then FRAME
(DESIGN CHOICE, unsafe in nothing that the block does: notes/assumptions/6.md). -/
def classify (h : Header) : FrameRow :=
  if rowApplies .keyResponse h then .keyResponse
  else if rowApplies .keySetPattern h then .keySetPattern
  else if rowApplies .keyReadPattern h then .keyReadPattern
  else if rowApplies .keyParamSet h then .keyParamSet
  else if rowApplies .keyParamRead h then .keyParamRead
  else if rowApplies .dirH2d h then .dirH2d
  else if rowApplies .dirD2h h then .dirD2h
  else .frame

end Sys2Proof.Machine
end

