-- ==== Sys2Proof/WellFormed.lean ====
section
/-! DEFINITION. Which instructions are well formed: the operand restrictions of R67 and R112 that do not depend on the
state, and, for the `frame` rows, that the header is one whose most specific row is the constructor's
(notes/assumptions/6.md). -/
namespace Sys2Proof

/-- The check, constructor by constructor. A beat is at most the whole buffer (R36, R112); VERIFY needs a trailer
(R81); every other operation takes every operand (R67). -/
def Instr.wellFormed : Instr → Bool
  | .reset => true
  | .start => true
  | .rxData d => decide (d.length ≤ Config.maxFrame)
  | .rxWouldBlock => true
  | .rxError => true
  | .tick => true
  | .csClear => true
  | .csAdd _ => true
  | .checksum _ => true
  | .verify b => !b.isEmpty
  | .encode _ _ => true
  | .decode _ => true
  | .dirH2d h _ => Machine.classify (h.header Config.dirH2d) == .dirH2d
  | .dirD2h h _ => Machine.classify (h.header Config.dirD2h) == .dirD2h
  | .keyResponse _ _ => true
  | .keyParamSet h lo _ => Machine.classify (h.header 0x00#8 lo) == .keyParamSet
  | .keyParamRead h lo _ => Machine.classify (h.header 0x80#8 lo) == .keyParamRead
  | .keySetPattern _ _ => true
  | .keyReadPattern _ _ => true
  | .frame h _ => Machine.classify h == .frame

/-- The same as a proposition, for statements. -/
abbrev Instr.WellFormed (i : Instr) : Prop := i.wellFormed = true

end Sys2Proof
end

