-- ==== Sys2Proof/Decode.lean ====
section
/-! DEFINITION. The decoder from requests to instructions, total, rejecting by name; the encoder beside it; and the
opcode table's words as requests (R67, R70; notes/assumptions/3.md, 4.md). -/
namespace Sys2Proof

/-- Why a request is no operation of the table. Each is safe: the machine takes no step. -/
inductive DecodeReject where
  /-- Operand bytes beside an operation that has no operand (R67). -/
  | strayOperands
  /-- CS_ADD carries exactly one byte (R83). -/
  | csAddOperand
  /-- ENCODE carries two key bytes before its payload (R90). -/
  | encodeKeyMissing
  /-- A frame shown without nine header bytes has no header to classify (R70). -/
  | headerMissing
  deriving DecidableEq, Repr

/-- What a request says. -/
inductive Decoded where
  | instr (i : Instr)
  /-- Codes 0x0 and 0xD to 0xF: "no event" (R67, U5). -/
  | noEvent
  | rejected (r : DecodeReject)
  deriving DecidableEq, Repr

/-- An operation without operands. -/
def decodeBare (i : Instr) : List Byte → Decoded
  | [] => .instr i
  | _ :: _ => .rejected .strayOperands

/-- CS_ADD's one operand byte. -/
def decodeCsAdd : List Byte → Decoded
  | [b] => .instr (.csAdd b)
  | _ => .rejected .csAddOperand

/-- ENCODE's operands: the key, high byte first as on the wire, then the payload. -/
def decodeEncode : List Byte → Decoded
  | hi :: lo :: p => .instr (.encode (Machine.u16be hi lo) p)
  | _ => .rejected .encodeKeyMissing

/-- An operation code with its operands (the table of R67). -/
def decodeOp (code : BitVec 4) (operands : List Byte) : Decoded :=
  match code.toNat with
  | 0x1 => decodeBare .reset operands
  | 0x2 => decodeBare .start operands
  | 0x3 => .instr (.rxData operands)
  | 0x4 => decodeBare .rxWouldBlock operands
  | 0x5 => decodeBare .rxError operands
  | 0x6 => decodeBare .tick operands
  | 0x7 => decodeBare .csClear operands
  | 0x8 => decodeCsAdd operands
  | 0x9 => .instr (.checksum operands)
  | 0xA => .instr (.verify operands)
  | 0xB => decodeEncode operands
  | 0xC => .instr (.decode operands)
  | _ => .noEvent

/-- The constructor that stands for a frame of class `r`. -/
def frameInstr (r : FrameRow) (h : Header) (rest : List Byte) : Instr :=
  match r with
  | .dirH2d => .dirH2d h.afterDir rest
  | .dirD2h => .dirD2h h.afterDir rest
  | .keyResponse => .keyResponse h.beforeKey rest
  | .keyParamSet => .keyParamSet h.beforeKey h.cmdLo rest
  | .keyParamRead => .keyParamRead h.beforeKey h.cmdLo rest
  | .keySetPattern => .keySetPattern h.beforeKey rest
  | .keyReadPattern => .keyReadPattern h.beforeKey rest
  | .frame => .frame h rest

/-- A frame shown to the parser: nine header bytes, then the rest (R50). -/
def decodeFrame : List Byte → Decoded
  | b0 :: b1 :: b2 :: b3 :: b4 :: b5 :: b6 :: b7 :: b8 :: rest =>
    .instr (frameInstr (Machine.classify ⟨b0, b1, b2, b3, b4, b5, b6, b7, b8⟩) ⟨b0, b1, b2, b3, b4, b5, b6, b7, b8⟩ rest)
  | _ => .rejected .headerMissing

/-- The decoder. -/
def decode : Request → Decoded
  | .op code operands => decodeOp code operands
  | .frame bytes => decodeFrame bytes

/-- The encoder: the request that presents an instruction. -/
def encode : Instr → Request
  | .reset => .op 0x1#4 []
  | .start => .op 0x2#4 []
  | .rxData d => .op 0x3#4 d
  | .rxWouldBlock => .op 0x4#4 []
  | .rxError => .op 0x5#4 []
  | .tick => .op 0x6#4 []
  | .csClear => .op 0x7#4 []
  | .csAdd b => .op 0x8#4 [b]
  | .checksum b => .op 0x9#4 b
  | .verify b => .op 0xA#4 b
  | .encode key p => .op 0xB#4 (Machine.hi8 key.toNat :: Machine.lo8 key.toNat :: p)
  | .decode b => .op 0xC#4 b
  | .dirH2d h rest => .frame ((h.header Config.dirH2d).bytes ++ rest)
  | .dirD2h h rest => .frame ((h.header Config.dirD2h).bytes ++ rest)
  | .keyResponse h rest => .frame ((h.header 0xFF#8 0xFF#8).bytes ++ rest)
  | .keyParamSet h lo rest => .frame ((h.header 0x00#8 lo).bytes ++ rest)
  | .keyParamRead h lo rest => .frame ((h.header 0x80#8 lo).bytes ++ rest)
  | .keySetPattern h rest => .frame ((h.header 0x00#8 0x62#8).bytes ++ rest)
  | .keyReadPattern h rest => .frame ((h.header 0x80#8 0x62#8).bytes ++ rest)
  | .frame h rest => .frame (h.bytes ++ rest)

/-- How many operand bytes an operation needs at least, all zero when a table word carries none
(notes/assumptions/4.md). -/
def leastOperands (code : BitVec 4) : Nat :=
  match code.toNat with
  | 0x8 => 1
  | 0xA => 1
  | 0xB => 2
  | _ => 0

/-- The header a 72-bit table word stands for: frame offset 0 is its leftmost byte (R70). -/
def tableHeader (w : Nat) : Header :=
  ⟨BitVec.ofNat 8 (w >>> 64), BitVec.ofNat 8 (w >>> 56), BitVec.ofNat 8 (w >>> 48), BitVec.ofNat 8 (w >>> 40),
   BitVec.ofNat 8 (w >>> 32), BitVec.ofNat 8 (w >>> 24), BitVec.ofNat 8 (w >>> 16), BitVec.ofNat 8 (w >>> 8),
   BitVec.ofNat 8 w⟩

/-- The request a word of spec/opcode_table.json stands for. A word of one byte is a 4-bit operation code in its low
bits with the fewest operand bytes the operation takes, all zero. A word of nine bytes is a frame header, followed by
zero bytes up to its declared length and at most `MAX_FRAME` in all. -/
def tableRequest (nbits w : Nat) : Option Request :=
  if nbits = 0 then none
  else if nbits ≤ 8 then some (.op (BitVec.ofNat 4 w) (List.replicate (leastOperands (BitVec.ofNat 4 w)) 0#8))
  else if nbits = 72 then
    let h := tableHeader w
    let total := min (Config.preLen + (Machine.headerLength h).toNat) Config.maxFrame
    some (.frame (h.bytes ++ List.replicate (total - Config.hdrLen) 0#8))
  else none

/-- The instruction the decoder reads from a word of the opcode table. -/
def decodeTableWord (nbits w : Nat) : Option Instr :=
  match tableRequest nbits w with
  | some r =>
    match decode r with
    | .instr i => some i
    | _ => none
  | none => none

end Sys2Proof
end

