-- ==== Sys2Proof/Machine/Packet.lean ====
section
/-! DEFINITION. What the operations return: the decode result of R24, the errors of R150 and the reply to a caller. -/
namespace Sys2Proof.Machine

/-- The direction label (R18, R101). -/
inductive DirLabel where
  | h2d
  | d2h
  | unknown
  deriving DecidableEq, Repr

/-- `DecodedPacket`, field by field (R24). -/
structure DecodedPacket where
  dir : Byte
  dirLabel : DirLabel
  devidB1 : Byte
  devidB2 : Byte
  deviceId : Half
  declaredLength : Half
  payloadLength : Nat
  group : Byte
  device : Byte
  commandKey : Half
  payload : List Byte
  checksumObserved : Byte
  checksumComputed : Byte
  checksumValid : Bool
  deriving DecidableEq, Repr

/-- The reason label of a `MalformedPacket` (R95). -/
inductive MalformedReason where
  /-- Fewer than nine bytes (R97). -/
  | headerShort
  /-- A declared length below 5 (R98). -/
  | lengthUnderflow
  /-- Fewer bytes than the declared total (R96). -/
  | short
  deriving DecidableEq, Repr

/-- The result of DECODE: a packet, or the error `MalformedPacket` (R95). -/
inductive DecodeResult where
  | ok (packet : DecodedPacket)
  | malformed (reason : MalformedReason)
  deriving DecidableEq, Repr

/-- The result of ENCODE: a frame, or `EncodingError(BufferTooLarge)` (R90, R151). -/
inductive EncodeResult where
  | ok (frame : List Byte)
  | bufferTooLarge
  deriving DecidableEq, Repr

/-- The error taxonomy (R150). -/
inductive BlockError where
  | encodingBufferTooLarge
  | transportError
  | timeoutError
  | checksumMismatch
  | malformedPacket
  | lookupIndexOutOfRange
  deriving DecidableEq, Repr

/-- What a function call returns to its caller (R67, R157; notes/assumptions/2.md). -/
inductive Reply where
  /-- CHECKSUM's byte (R80). -/
  | byte (b : Byte)
  /-- VERIFY's boolean (R81). -/
  | bool (v : Bool)
  /-- ENCODE's frame or error (R90). -/
  | encoded (r : EncodeResult)
  /-- DECODE's packet or error (R95). -/
  | decoded (r : DecodeResult)
  /-- A frame shown to the parser: the table's rows that apply to its header, and its parse (R70, R95). -/
  | classified (rows : List FrameRow) (r : DecodeResult)
  deriving DecidableEq, Repr

end Sys2Proof.Machine
end

