-- ==== Sys2Proof/Machine/State.lean ====
section
/-! DEFINITION. The state of the block: the five items of R10, the model's reply port and the requests presented and
not yet taken; why a step can stop; and the state after reset (R22). -/
namespace Sys2Proof.Machine

/-- The reassembler's state machine (R11). -/
inductive RxState where
  | idle
  | accumulating
  | complete
  | timedOut
  | transportError
  deriving DecidableEq, Repr

/-- The receive buffer as (address, byte) cells, addresses strictly rising and below 256; an address not listed holds
no value (R12, R30; notes/assumptions/8.md). -/
abbrev Memory := List Host.Cell

/-- The state of the block. -/
structure State where
  /-- `STATE` (R11). -/
  state : RxState
  /-- `RXBUF` (R12). -/
  rxbuf : Memory
  /-- `CNT`, 0 to 256 (R14). -/
  cnt : Nat
  /-- `TIMER`, 0 to `DEADLINE_TICKS` (R15). -/
  timer : Nat
  /-- `ACC` (R16). -/
  acc : Byte
  /-- The MODEL's own: what the last function call returned to its caller (R157; notes/assumptions/2.md). -/
  reply : Option Reply
  /-- The MODEL's own: what the outside agents have presented and the block has not taken, one entry per clock cycle
  (R6, R124; notes/assumptions/1.md). -/
  inbox : List Cycle
  deriving DecidableEq, Repr

/-- Why the machine stops with a fault. Neither is in the spec, and no state that satisfies the invariants of R21
raises one (notes/assumptions/9.md). -/
inductive Fault where
  /-- Raised by RX_DATA: `MemWrite(a, n, V)` with `a + n > 256`, which R8 leaves undefined. Safe: the model stops. -/
  | bufferOverrun
  /-- Raised by RX_DATA: a read of a byte that holds no value, which R12 forbids. Safe: the model stops. -/
  | noValue
  deriving DecidableEq, Repr

/-- Why an operation is given no meaning. -/
inductive Refusal where
  /-- An instruction rejected by name in `exec`'s own arm; no arm of this model uses it. Safe. -/
  | notModelled (mnemonic : String)
  /-- Raised by RX_DATA in `Accumulating`: the beat is larger than `min(RX_BEAT_MAX, 256 - CNT)` (R112). Safe. -/
  | beatTooLarge
  /-- Raised by VERIFY of the empty sequence (R81). Safe. -/
  | verifyEmpty
  /-- Raised by the step: the request is no operation of the table (notes/assumptions/3.md). Safe. -/
  | undecodable (why : DecodeReject)
  deriving DecidableEq, Repr

/-- The state after reset (R22). `rxbuf` lists nothing: its contents are unspecified and unobservable. `reply` and
`inbox` are empty (DESIGN CHOICE: notes/assumptions/1.md, 2.md). -/
def State.reset : State where
  state := .idle
  rxbuf := []
  cnt := 0
  timer := 0
  acc := 0#8
  reply := none
  inbox := []

/-- The answer of an instruction. -/
abbrev Result := Host.Outcome State Fault Refusal

end Sys2Proof.Machine
end

