-- ==== Sys2Proof/Machine/Ops.lean ====
section
/-! DEFINITION. The named operations over the receive buffer and the scalar registers. Every write of `CNT`, `STATE`,
`TIMER`, `ACC` and `RXBUF` goes through one of them. The block has no exception entry: what stands in its place is the
entry into and the exit from a terminal state (R162, R163), `endRun`, `completeRun` and `beginRun` here. -/
namespace Sys2Proof.Machine

/-! ## The receive buffer -/

/-- The canonical form: addresses strictly rising, all inside the 256-byte buffer (R30). An unlisted address holds no
value, so no entry can repeat what it would read as. -/
abbrev Memory.wf (m : Memory) : Prop := m.Pairwise (fun c d => c.1 < d.1) ∧ ∀ c ∈ m, c.1 < Config.maxFrame

/-- The byte a cell holds, if it holds one. -/
def Memory.load : Memory → Nat → Option Byte
  | [], _ => none
  | (x, v) :: m, a => if a = x then some v else Memory.load m a

/-- Write one byte, keeping the canonical form. -/
def Memory.store (a : Nat) (b : Byte) : Memory → Memory
  | [] => [(a, b)]
  | (x, v) :: m =>
    if a < x then (a, b) :: (x, v) :: m
    else if a = x then (a, b) :: m
    else (x, v) :: Memory.store a b m

/-- Write a list of bytes at rising addresses from `a`. -/
def Memory.storeList : Memory → Nat → List Byte → Memory
  | m, _, [] => m
  | m, a, b :: bs => Memory.storeList (Memory.store a b m) (a + 1) bs

/-- Read `n` bytes at rising addresses from `a`; absent if one of them holds no value. -/
def Memory.loadList (m : Memory) (a : Nat) : Nat → Option (List Byte)
  | 0 => some []
  | n + 1 =>
    match Memory.load m a, Memory.loadList m (a + 1) n with
    | some b, some bs => some (b :: bs)
    | _, _ => none

/-- `MemWrite(a, n, V)`: defined only for `a + n <= 256` (R8). -/
def State.memWrite (s : State) (a : Nat) (v : List Byte) : Option State :=
  if a + v.length ≤ Config.maxFrame then some { s with rxbuf := s.rxbuf.storeList a v } else none

/-- `MemRead(a, n)`: defined only for `a + n <= CNT` (R8, R12). -/
def State.memRead (s : State) (a n : Nat) : Option (List Byte) :=
  if a + n ≤ s.cnt then s.rxbuf.loadList a n else none

/-- `RXBUF[i]` as a rule may read it: only below `CNT` (R12). -/
def State.readByte (s : State) (i : Nat) : Option Byte :=
  if i < s.cnt then s.rxbuf.load i else none

/-- `L`, the declared length in the buffer, from `RXBUF[3]` and `RXBUF[4]` (R60). -/
def State.bufferLength (s : State) : Option Half :=
  match s.readByte 3, s.readByte 4 with
  | some lo, some hi => some (u16le lo hi)
  | _, _ => none

/-- `T = 5 + L`, without wrap (R61, R87 (c)). -/
def State.bufferTotal (s : State) : Option Nat :=
  match s.bufferLength with
  | some l => some (Config.preLen + l.toNat)
  | none => none

/-- The space the block offers to one read attempt: `256 - CNT` (R41). -/
def State.offeredSpace (s : State) : Nat := Config.maxFrame - s.cnt

/-! ## The sequencing registers -/

/-- Whether a state is terminal (R7). -/
def RxState.terminal : RxState → Bool
  | .idle => false
  | .accumulating => false
  | .complete => true
  | .timedOut => true
  | .transportError => true

/-- The values RESET writes; `RXBUF` is not written (R175). -/
def State.toReset (s : State) : State := { s with state := .idle, cnt := 0, timer := 0, acc := 0#8 }

/-- Begin a run: the one exit from `Idle` and from a terminal state but RESET (R114, R163). -/
def State.beginRun (s : State) : State := { s with state := .accumulating, cnt := 0, timer := 0 }

/-- End a run without a frame: the partial buffer is discarded (R162). -/
def State.endRun (s : State) (into : RxState) : State := { s with state := into, cnt := 0 }

/-- End a run with a frame of `total` bytes: truncate and complete (R118, R162). -/
def State.completeRun (s : State) (total : Nat) : State := { s with state := .complete, cnt := total }

/-- `CNT <- n`. -/
def State.setCnt (s : State) (n : Nat) : State := { s with cnt := n }

/-- `TIMER <- n`. -/
def State.setTimer (s : State) (n : Nat) : State := { s with timer := n }

/-- `ACC <- b`. -/
def State.setAcc (s : State) (b : Byte) : State := { s with acc := b }

/-- Return a value to the caller of a function. -/
def State.answer (s : State) (r : Reply) : State := { s with reply := some r }

/-- No value is being returned: what an event leaves behind (notes/assumptions/2.md). -/
def State.clearReply (s : State) : State := { s with reply := none }

end Sys2Proof.Machine
end

