-- ==== Sys2Proof/Machine/ChecksumUnit.lean ====
section
/-! DEFINITION. The meanings of CS_CLEAR, CS_ADD, CHECKSUM and VERIFY (spec/40_checksum.md). -/
namespace Sys2Proof.Machine

/-- CS_CLEAR: `ACC <- 0`, in every `STATE` (R82). -/
def execCsClear (s : State) : Result := .next (s.setAcc 0#8)

/-- CS_ADD: `ACC <- (ACC + b) mod 256`, in every `STATE` (R83). -/
def execCsAdd (b : Byte) (s : State) : Result := .next (s.setAcc (accAdd s.acc b))

/-- CHECKSUM: total, returns a byte, reads and writes no state of the block (R80). -/
def execChecksum (bytes : List Byte) (s : State) : Result := .next (s.answer (.byte (checksumOf bytes)))

/-- VERIFY: returns a boolean; the empty sequence is refused (R81, U11). -/
def execVerify (bytes : List Byte) (s : State) : Result :=
  match verifyOf bytes with
  | some v => .next (s.answer (.bool v))
  | none => .refused .verifyEmpty

end Sys2Proof.Machine
end

