-- ==== Sys2Proof/Machine/Flags.lean ====
section
/-! DEFINITION. The three flags of the block, all pure functions (R18); none is a stored bit. -/
namespace Sys2Proof.Machine

/-- `dir_label`: `h2d` for 0xAA, `d2h` for 0xAB, `unknown` for the other 254 values (R101). -/
def dirLabelOf (b : Byte) : DirLabel :=
  if b = Config.dirH2d then .h2d else if b = Config.dirD2h then .d2h else .unknown

/-- `checksum_valid`: the computed checksum of the body equals the trailer (R102). -/
def checksumValidOf (body : List Byte) (trailer : Byte) : Bool := checksumOf body == trailer

/-- The decode status: `Ok` or `Malformed` (R18). -/
def DecodeResult.isOk : DecodeResult → Bool
  | .ok _ => true
  | .malformed _ => false

end Sys2Proof.Machine
end

