-- ==== Sys2Proof/Machine/Operands.lean ====
section
/-! DEFINITION. The operand forms: the bound on a beat (R112), the header ENCODE writes (R90, R92) and the bytes of a
frame shown by its parts (R50). -/
namespace Sys2Proof.Machine

/-- The bound on a beat in `Accumulating`: `min(RX_BEAT_MAX, 256 - CNT)` (R112). -/
def State.beatBound (beatMax : Nat) (s : State) : Nat := min beatMax s.offeredSpace

/-- The header ENCODE writes for a key and a declared length (R90, R92). -/
def encodeHeader (key : Half) (length : Nat) : Header where
  dir := Config.dirH2d
  devid1 := 0x00#8
  devid2 := 0x00#8
  lenLo := lo8 length
  lenHi := hi8 length
  group := 0x00#8
  device := 0x00#8
  cmdHi := hi8 key.toNat
  cmdLo := lo8 key.toNat

/-- A frame's bytes: its header, then the rest (R50). -/
def frameBytes (h : Header) (rest : List Byte) : List Byte := h.bytes ++ rest

end Sys2Proof.Machine
end

