-- ==== Sys2Proof/Machine/Codec.lean ====
section
/-! DEFINITION. The frame builder ENC and the frame parser DEC as pure functions (spec/41_encode.md, 42_decode.md). -/
namespace Sys2Proof.Machine

/-- `ENCODE(key, P)` (R90): the size test first, then header, payload and trailer. -/
def buildFrame (key : Half) (payload : List Byte) : EncodeResult :=
  if Config.hdrLen + payload.length + 1 > Config.maxFrame then .bufferTooLarge
  else
    let body := frameBytes (encodeHeader key (payload.length + Config.lenBias)) payload
    .ok (body ++ [checksumOf body])

/-- The packet of a frame whose declared span the buffer holds, with `trailer` at offset `4 + L` (R95, R102). -/
def packetOf (h : Header) (bytes : List Byte) (trailer : Byte) : DecodedPacket :=
  let len := headerLength h
  let body := bytes.take (Config.preLen + len.toNat - 1)
  { dir := h.dir
    dirLabel := dirLabelOf h.dir
    devidB1 := h.devid1
    devidB2 := h.devid2
    deviceId := u16le h.devid1 h.devid2
    declaredLength := len
    payloadLength := len.toNat - Config.lenBias
    group := h.group
    device := h.device
    commandKey := headerKey h
    payload := (bytes.take (4 + len.toNat)).drop Config.hdrLen
    checksumObserved := trailer
    checksumComputed := checksumOf body
    checksumValid := checksumValidOf body trailer }

/-- The parser after the header is there: the two length tests in R95's order, then the packet. The trailer exists
whenever the second test passes. -/
def parseWithHeader (h : Header) (bytes : List Byte) : DecodeResult :=
  let len := (headerLength h).toNat
  if len < Config.lenBias then .malformed .lengthUnderflow
  else if bytes.length < Config.preLen + len then .malformed .short
  else
    match bytes[4 + len]? with
    | some trailer => .ok (packetOf h bytes trailer)
    | none => .malformed .short

/-- `DECODE(B)` (R95): fewer than nine bytes is `HeaderShort`. -/
def parseFrame (bytes : List Byte) : DecodeResult :=
  match bytes with
  | b0 :: b1 :: b2 :: b3 :: b4 :: b5 :: b6 :: b7 :: b8 :: _ => parseWithHeader ⟨b0, b1, b2, b3, b4, b5, b6, b7, b8⟩ bytes
  | _ => .malformed .headerShort

end Sys2Proof.Machine
end

