-- ==== Sys2Proof/Machine/CodecUnit.lean ====
section
/-! DEFINITION. The meanings of ENCODE and DECODE, and of the frame rows, which show a frame to the parser
(spec/41_encode.md, 42_decode.md, 30_encoding.md R70; notes/assumptions/5.md). -/
namespace Sys2Proof.Machine

/-- ENCODE: returns the frame or `EncodingError(BufferTooLarge)` to its caller (R90, R151). -/
def execEncode (key : Half) (payload : List Byte) (s : State) : Result :=
  .next (s.answer (.encoded (buildFrame key payload)))

/-- DECODE: returns the packet or `MalformedPacket` to its caller (R95, R155). -/
def execDecode (bytes : List Byte) (s : State) : Result := .next (s.answer (.decoded (parseFrame bytes)))

/-- A frame shown to the parser: the table's rows that apply to it and its parse, no state of the block changed
(R66, R70, R107). -/
def showFrame (h : Header) (rest : List Byte) (s : State) : Result :=
  .next (s.answer (.classified (rowsOf h) (parseFrame (frameBytes h rest))))

/-- DIR_H2D: a frame whose direction byte is 0xAA (R101). -/
def execDirH2d (h : AfterDir) (rest : List Byte) (s : State) : Result := showFrame (h.header Config.dirH2d) rest s

/-- DIR_D2H: a frame whose direction byte is 0xAB (R101). -/
def execDirD2h (h : AfterDir) (rest : List Byte) (s : State) : Result := showFrame (h.header Config.dirD2h) rest s

/-- KEY_RESPONSE: a frame with the reserved key 0xFFFF (R63, U2). -/
def execKeyResponse (h : BeforeKey) (rest : List Byte) (s : State) : Result := showFrame (h.header 0xFF#8 0xFF#8) rest s

/-- KEY_PARAM_SET: a frame with key 0x00 and a low byte (R65). -/
def execKeyParamSet (h : BeforeKey) (cmdLo : Byte) (rest : List Byte) (s : State) : Result :=
  showFrame (h.header 0x00#8 cmdLo) rest s

/-- KEY_PARAM_READ: a frame with key 0x80 and a low byte (R65). -/
def execKeyParamRead (h : BeforeKey) (cmdLo : Byte) (rest : List Byte) (s : State) : Result :=
  showFrame (h.header 0x80#8 cmdLo) rest s

/-- KEY_SET_PATTERN: a frame with key 0x0062 (R64). -/
def execKeySetPattern (h : BeforeKey) (rest : List Byte) (s : State) : Result := showFrame (h.header 0x00#8 0x62#8) rest s

/-- KEY_READ_PATTERN: a frame with key 0x8062 (R64). -/
def execKeyReadPattern (h : BeforeKey) (rest : List Byte) (s : State) : Result := showFrame (h.header 0x80#8 0x62#8) rest s

/-- FRAME: a frame with any header (R50). -/
def execFrame (h : Header) (rest : List Byte) (s : State) : Result := showFrame h rest s

end Sys2Proof.Machine
end

