-- ==== Sys2Proof/Machine/Reassembler.lean ====
section
/-! DEFINITION. The reassembler RXF (spec/43_framer.md) and RESET (spec/70_reset_and_hazards.md). The operations take
the OPEN parameters of R5 as arguments; the meanings apply them to Config's constants (notes/assumptions/7.md). -/
namespace Sys2Proof.Machine

/-- The length test of R115, made once after the whole beat is appended: complete at `T` bytes, and only once nine
bytes have accumulated. -/
def lengthTest (s : State) : Result :=
  if Config.hdrLen ≤ s.cnt then
    match s.bufferTotal with
    | some total => if total ≤ s.cnt then .next (s.completeRun total) else .next s
    | none => .fault .noValue
  else .next s

/-- A beat taken in `Accumulating`: append at `CNT`, then the length test (R115). -/
def takeBeat (bytes : List Byte) (s : State) : Result :=
  match s.memWrite s.cnt bytes with
  | some s' => lengthTest (s'.setCnt (s.cnt + bytes.length))
  | none => .fault .bufferOverrun

/-- RX_DATA for a given `RX_BEAT_MAX` (R112, R115): a beat over the bound is refused, never clipped; outside
`Accumulating` nothing changes (R113). -/
def rxDataOp (beatMax : Nat) (bytes : List Byte) (s : State) : Result :=
  match s.state with
  | .accumulating => if bytes.length ≤ s.beatBound beatMax then takeBeat bytes s else .refused .beatTooLarge
  | .idle => .next s
  | .complete => .next s
  | .timedOut => .next s
  | .transportError => .next s

/-- TICK for a given `DEADLINE_TICKS` (R119). -/
def tickOp (deadline : Nat) (s : State) : State :=
  match s.state with
  | .accumulating =>
    if s.timer + 1 = deadline then (s.setTimer (s.timer + 1)).endRun .timedOut else s.setTimer (s.timer + 1)
  | .idle => s
  | .complete => s
  | .timedOut => s
  | .transportError => s

/-- RESET: accepted in every state; `RXBUF` is not written (R175). -/
def execReset (s : State) : Result := .next s.toReset

/-- START: begins a run in `Idle` and in a terminal state, ignored in `Accumulating` (R114). -/
def execStart (s : State) : Result :=
  match s.state with
  | .accumulating => .next s
  | .idle => .next s.beginRun
  | .complete => .next s.beginRun
  | .timedOut => .next s.beginRun
  | .transportError => .next s.beginRun

/-- RX_DATA (R115). -/
def execRxData (bytes : List Byte) (s : State) : Result := rxDataOp Config.rxBeatMax bytes s

/-- RX_WOULD_BLOCK: no change, in every `STATE` (R116). -/
def execRxWouldBlock (s : State) : Result := .next s

/-- RX_ERROR: ends the run in `TransportError` and discards the partial buffer (R117). -/
def execRxError (s : State) : Result :=
  match s.state with
  | .accumulating => .next (s.endRun .transportError)
  | .idle => .next s
  | .complete => .next s
  | .timedOut => .next s
  | .transportError => .next s

/-- TICK (R119). -/
def execTick (s : State) : Result := .next (tickOp Config.deadlineTicks s)

end Sys2Proof.Machine
end

