-- ==== Sys2Proof/Machine/Dispatch.lean ====
section
/-! DEFINITION. The instruction dispatch: one arm per constructor of Instr, each one direct call of its meaning. -/
namespace Sys2Proof.Machine

-- Every arm is a meaning.
def exec (i : Instr) (s : State) : Host.Outcome State Fault Refusal :=
  match i with
  | .reset => Sys2Proof.Machine.execReset s
  | .start => Sys2Proof.Machine.execStart s
  | .rxData bytes => Sys2Proof.Machine.execRxData bytes s
  | .rxWouldBlock => Sys2Proof.Machine.execRxWouldBlock s
  | .rxError => Sys2Proof.Machine.execRxError s
  | .tick => Sys2Proof.Machine.execTick s
  | .csClear => Sys2Proof.Machine.execCsClear s
  | .csAdd b => Sys2Proof.Machine.execCsAdd b s
  | .checksum bytes => Sys2Proof.Machine.execChecksum bytes s
  | .verify bytes => Sys2Proof.Machine.execVerify bytes s
  | .encode key payload => Sys2Proof.Machine.execEncode key payload s
  | .decode bytes => Sys2Proof.Machine.execDecode bytes s
  | .dirH2d h rest => Sys2Proof.Machine.execDirH2d h rest s
  | .dirD2h h rest => Sys2Proof.Machine.execDirD2h h rest s
  | .keyResponse h rest => Sys2Proof.Machine.execKeyResponse h rest s
  | .keyParamSet h cmdLo rest => Sys2Proof.Machine.execKeyParamSet h cmdLo rest s
  | .keyParamRead h cmdLo rest => Sys2Proof.Machine.execKeyParamRead h cmdLo rest s
  | .keySetPattern h rest => Sys2Proof.Machine.execKeySetPattern h rest s
  | .keyReadPattern h rest => Sys2Proof.Machine.execKeyReadPattern h rest s
  | .frame h rest => Sys2Proof.Machine.execFrame h rest s

end Sys2Proof.Machine
end

