-- ==== Sys2Proof/Machine/Fetch.lean ====
section
/-! DEFINITION. How the next request is taken: the order of the requests of one clock cycle (R124, D9) and the head of
the inbox (notes/assumptions/1.md, 12.md). -/
namespace Sys2Proof.Machine

/-- What a request is to the order of its cycle (R124). -/
inductive RequestKind where
  | reset
  | start
  | transport
  | tick
  | other
  deriving DecidableEq, Repr

/-- The kind of a request, by its operation code (R67). -/
def Request.kind : Request → RequestKind
  | .op code _ =>
    match code.toNat with
    | 0x1 => .reset
    | 0x2 => .start
    | 0x3 => .transport
    | 0x4 => .transport
    | 0x5 => .transport
    | 0x6 => .tick
    | _ => .other
  | .frame _ => .other

/-- The requests of one kind, in the order given. -/
def ofKind (k : RequestKind) (c : Cycle) : Cycle := c.filter (fun r => Request.kind r == k)

/-- Transport events and ticks of one cycle in the order of `SAME_CYCLE_ORDER`, which matters only where both are
present (R124). -/
def orderTimed (o : Config.SameCycleOrder) (rx ticks : Cycle) : Cycle :=
  match rx, ticks with
  | [], t => t
  | r, [] => r
  | r, t =>
    match o with
    | .rxFirst => r ++ t
    | .tickFirst => t ++ r

/-- The requests of one cycle one at a time: RESET wins over everything in its cycle; START before the transport
events and ticks (R124). The functions and the streaming events, which touch no reassembler state, come last
(DESIGN CHOICE, notes/assumptions/12.md). -/
def serialise (o : Config.SameCycleOrder) (c : Cycle) : Cycle :=
  match ofKind .reset c with
  | r :: _ => [r]
  | [] => ofKind .start c ++ (orderTimed o (ofKind .transport c) (ofKind .tick c) ++ ofKind .other c)

/-- What the block finds at its interface. -/
inductive Fetched where
  /-- Nothing is presented; the state with an empty cycle, if there was one, passed. -/
  | idle (s : State)
  /-- The request to take, and the state without it. -/
  | request (r : Request) (s : State)
  deriving DecidableEq, Repr

/-- Take the next request for a given `SAME_CYCLE_ORDER`. -/
def fetchWith (o : Config.SameCycleOrder) (s : State) : Fetched :=
  match s.inbox with
  | [] => .idle s
  | c :: cs =>
    match serialise o c with
    | [] => .idle { s with inbox := cs }
    | [r] => .request r { s with inbox := cs }
    | r :: r' :: rs => .request r { s with inbox := (r' :: rs) :: cs }

/-- Take the next request. -/
def fetch (s : State) : Fetched := fetchWith Config.sameCycleOrder s

/-- Put one request before everything presented, in a cycle of its own. -/
def State.present (s : State) (r : Request) : State := { s with inbox := [r] :: s.inbox }

end Sys2Proof.Machine
end

