-- ==== Sys2Proof/Machine/Step.lean ====
section
/-! DEFINITION. One step of the block: take one request, decode it, run it (R6). -/
namespace Sys2Proof.Machine

/-- One step. With nothing presented, or a code that means "no event" (R67), nothing of the block changes. An
instruction runs with the reply of the call before it gone (notes/assumptions/2.md). -/
def step (s : State) : Host.Outcome State Fault Refusal :=
  match fetch s with
  | .idle s' => .next s'
  | .request r s' =>
    match decode r with
    | .instr i => exec i s'.clearReply
    | .noEvent => .next s'
    | .rejected why => .refused (.undecodable why)

/-- `s` with the instruction of a table word presented next, in a cycle of its own. -/
def State.withFetchWord (s : State) (nbits w : Nat) : State :=
  match tableRequest nbits w with
  | some r => s.present r
  | none => s

end Sys2Proof.Machine
end

