-- ==== Sys2Proof/Machine/Outputs.lean ====
section
/-! DEFINITION. What the host reads, with no side effect: `STATE`, `CNT`, `RESULT`, the checksum outputs, the errors'
codes, and the levels an implementation may export (R19, R25, R84, R150, R158). All are pure functions of the state. -/
namespace Sys2Proof.Machine

/-- The 3-bit code of `STATE` (D21). -/
def RxState.code : RxState → BitVec 3
  | .idle => 0#3
  | .accumulating => 1#3
  | .complete => 2#3
  | .timedOut => 3#3
  | .transportError => 4#3

/-- `CNT` as the 9-bit output `cnt[8:0]` (R10, D27). -/
def State.cntBits (s : State) : BitVec 9 := BitVec.ofNat 9 s.cnt

/-- `RXBUF[0:CNT]` (R12). -/
def State.received (s : State) : Option (List Byte) := s.memRead 0 s.cnt

/-- `RESULT`: the parse of `RXBUF[0:CNT]` in `Complete`, else none (R25). It is none too where a byte below `CNT` holds
no value, which no reachable state shows (notes/assumptions/9.md). -/
def State.result (s : State) : Option DecodeResult :=
  match s.state with
  | .complete =>
    match s.received with
    | some bytes => some (parseFrame bytes)
    | none => none
  | .idle => none
  | .accumulating => none
  | .timedOut => none
  | .transportError => none

/-- `CS_SUM = ACC` (R84). -/
def State.csSum (s : State) : Byte := s.acc

/-- `CS_CHK = (256 - ACC) mod 256` (R84). -/
def State.csChk (s : State) : Byte := BitVec.ofNat 8 ((256 - s.acc.toNat) % 256)

/-- `CS_ZERO = (ACC = 0)` (R84). -/
def State.csZero (s : State) : Bool := s.acc == 0#8

/-- The level "`STATE` is terminal" an implementation may export (R158). -/
def State.runEnded (s : State) : Bool := s.state.terminal

/-- `rx_ready` of the informative binding D27: the block makes read attempts in `Accumulating` with space left
(R41, R111). -/
def State.rxReady (s : State) : Bool := s.state == .accumulating && decide (s.cnt < Config.maxFrame)

/-- The code of an error; 0 is no error (R150). -/
def BlockError.code : BlockError → Nat
  | .encodingBufferTooLarge => 1
  | .transportError => 2
  | .timeoutError => 3
  | .checksumMismatch => 4
  | .malformedPacket => 5
  | .lookupIndexOutOfRange => 6

/-- The error a decode result reports: `MalformedPacket`, or the soft `ChecksumMismatch` (R154, R155). -/
def DecodeResult.error : DecodeResult → Option BlockError
  | .ok p => if p.checksumValid then none else some .checksumMismatch
  | .malformed _ => some .malformedPacket

/-- The error a reply reports to its caller (R157). -/
def Reply.error : Reply → Option BlockError
  | .byte _ => none
  | .bool _ => none
  | .encoded (.ok _) => none
  | .encoded .bufferTooLarge => some .encodingBufferTooLarge
  | .decoded r => r.error
  | .classified _ r => r.error

/-- The error a run reports: the terminal state itself, and in `Complete` what its `RESULT` reports (R152 to R155). -/
def State.runError (s : State) : Option BlockError :=
  match s.state with
  | .timedOut => some .timeoutError
  | .transportError => some .transportError
  | .complete =>
    match s.result with
    | some r => r.error
    | none => none
  | .idle => none
  | .accumulating => none

end Sys2Proof.Machine
end

