-- ==== Sys2Proof/Machine/Software.lean ====
section
/-! DEFINITION. The surrounding software of spec/45_surrounding_software.md: the Command Registry and the Diagnostic
Decoder, as pure functions of what the block reports. R3 leaves them out of the block and no step calls them; the data
the source does not give are opaque constants of Config (notes/assumptions/18.md). -/
namespace Sys2Proof.Machine

/-! ## Command Registry -/

/-- The literal-key family (R136). -/
def literalCommands : List Config.LiteralCommand :=
  [.response, .setAddress, .reset, .readAddress, .readEdid, .readHotPlugStatus, .readNativeTiming, .readOutputStatus]

/-- The wire key of a literal command: 0xFFFF for the response, open for the other seven (R136, N3). -/
def literalKey (c : Config.LiteralCommand) : Half := Config.registry.literalKey c

/-- The literal command a key stands for. -/
def literalOf (key : Half) : Option Config.LiteralCommand := literalCommands.find? (fun c => literalKey c == key)

/-- The two variants of a parameter command (R137). -/
inductive KeyVariant where
  | read
  | set
  deriving DecidableEq, Repr

/-- `read` or `set` (R138). -/
def KeyVariant.word : KeyVariant → String
  | .read => "read"
  | .set => "set"

/-- Bit 15 of a key: the read variant (R65, R138). -/
def isReadKey (key : Half) : Bool := key.getLsbD 15

/-- The variant a key's bit 15 says, whatever the key (R138). -/
def variantOf (key : Half) : KeyVariant := if isReadKey key then .read else .set

/-- The base key's low byte where a key is in the parameter range: high byte 0x00 or 0x80, low byte 0x61 to 0xAB (R65). -/
def paramByte (key : Half) : Option Byte :=
  let base := key &&& ~~~Config.keyReadBit
  if Config.paramLow.toNat ≤ base.toNat ∧ base.toNat ≤ Config.paramHigh.toNat then some (lo8 base.toNat) else none

/-- The wire key of a parameter command's variant (R65, R137). -/
def paramKey (v : KeyVariant) (e : Config.ParamEntry) : Half :=
  match v with
  | .read => e.readKey
  | .set => e.setKey

/-- The parameter command of a base key's low byte; not every byte of the range need have one (R65). -/
def paramOfByte (b : Byte) : Option Config.ParamEntry := Config.registry.params.find? (fun e => e.base == b)

/-- The parameter command of a name. -/
def paramNamed (name : String) : Option Config.ParamEntry := Config.registry.params.find? (fun e => e.name == name)

/-- The parameter command a key is a variant of. -/
def paramOf (key : Half) : Option Config.ParamEntry := (paramByte key).bind paramOfByte

/-- What a key is to `describe`, the unknown one an explicit variant (R138, R145, R146). -/
inductive KeyMeaning where
  | literal (c : Config.LiteralCommand)
  | parameter (v : KeyVariant) (e : Config.ParamEntry)
  | unrecognized
  deriving DecidableEq, Repr

/-- The meaning of a key. No key is both a literal's and a parameter command's, so the order of the two lookups decides
nothing. DESIGN CHOICE (notes/assumptions/23.md): a key in the parameter range for which no parameter command is
defined, which R65 allows and of which no rule says more, is unrecognized, for `describe` and for item (h) alike. -/
def keyMeaning (key : Half) : KeyMeaning :=
  match literalOf key with
  | some c => .literal c
  | none =>
    match paramOf key with
    | some e => .parameter (variantOf key) e
    | none => .unrecognized

/-- A semantic command identifier (R135). -/
inductive Command where
  | literal (c : Config.LiteralCommand)
  | parameter (v : KeyVariant) (name : String)
  deriving DecidableEq, Repr

/-- The registry from wire keys to commands (R135). -/
def commandOf (key : Half) : Option Command :=
  match keyMeaning key with
  | .literal c => some (.literal c)
  | .parameter v e => some (.parameter v e.name)
  | .unrecognized => none

/-- The registry from commands to wire keys; a name no parameter command has is no command (R135). -/
def wireKey : Command → Option Half
  | .literal c => some (literalKey c)
  | .parameter v name => (paramNamed name).map (paramKey v)

/-- `describe(command_key)`: never fails (R138). -/
def describe (key : Half) : String :=
  match keyMeaning key with
  | .literal c => Config.literalName c
  | .parameter v e => v.word ++ " " ++ e.name
  | .unrecognized => (variantOf key).word ++ " unk"

/-- A value table; index 0 of the response-status table is "ok" (R139). -/
def valueTable : Config.ValueTable → List String
  | .responseStatus => "ok" :: Config.tableLabels .responseStatus
  | .timing => Config.tableLabels .timing
  | .pattern => Config.tableLabels .pattern
  | .colorspace => Config.tableLabels .colorspace
  | .deepColorMode => Config.tableLabels .deepColorMode
  | .outputType => Config.tableLabels .outputType
  | .audioSampleRate => Config.tableLabels .audioSampleRate
  | .audioWidth => Config.tableLabels .audioWidth
  | .audioChannelCount => Config.tableLabels .audioChannelCount
  | .binaryEnable => Config.tableLabels .binaryEnable

/-- The result of a table lookup: a label, or `LookupError(IndexOutOfRange)` (R140, R156). -/
inductive LookupResult where
  | label (text : String)
  | indexOutOfRange
  deriving DecidableEq, Repr

/-- The strict lookup in a table (R139, R140): never one past the end (R141). -/
def valueLabel (table : List String) (raw : Nat) : LookupResult :=
  match table[raw]? with
  | some text => .label text
  | none => .indexOutOfRange

/-! ## Diagnostic Decoder -/

/-- The 3-byte payload of a response: the echoed key, high byte first, and the status index (R144). -/
def responseOf : List Byte → Option (Half × Byte)
  | [hi, lo, status] => some (u16be hi lo, status)
  | _ => none

/-- The command-specific interpretation of a payload (R143, R144, R145). -/
inductive Interpretation where
  /-- A parameter command: the label of `payload[0]`. -/
  | value (r : LookupResult)
  /-- set-address and read-address: the group and device bytes. -/
  | addresses (group device : Byte)
  /-- The hot-plug status. -/
  | hotPlug (high : Bool)
  /-- A response: the echoed key and the label of its status. -/
  | response (echoed : Half) (status : LookupResult)
  /-- An unrecognized key. -/
  | unk
  /-- The source does not say what is rendered (R143, N18). -/
  | unstated
  deriving DecidableEq, Repr

/-- The group and device address bytes of a set-address or read-address payload, at that command's own open indices
(R143, N18; notes/assumptions/25.md). -/
def interpretAddresses (c : Config.LiteralCommand) (payload : List Byte) : Interpretation :=
  match payload[Config.groupIndex c]?, payload[Config.deviceIndex c]? with
  | some g, some d => .addresses g d
  | _, _ => .unstated

/-- The interpretation of a literal command's payload. -/
def interpretLiteral (c : Config.LiteralCommand) (payload : List Byte) : Interpretation :=
  match c with
  | .response =>
    match responseOf payload with
    | some (key, status) => .response key (valueLabel (valueTable .responseStatus) status.toNat)
    | none => .unstated
  | .setAddress => interpretAddresses .setAddress payload
  | .readAddress => interpretAddresses .readAddress payload
  | .readHotPlugStatus =>
    match payload with
    | b :: _ => .hotPlug (Config.hotPlugHigh b)
    | [] => .unstated
  | .reset => .unstated
  | .readEdid => .unstated
  | .readNativeTiming => .unstated
  | .readOutputStatus => .unstated

/-- The interpretation of a parameter command's payload: `value_label(base_command, payload[0])` (R143). -/
def interpretParameter (e : Config.ParamEntry) (payload : List Byte) : Interpretation :=
  match payload with
  | v :: _ => .value (valueLabel (valueTable e.table) v.toNat)
  | [] => .unstated

/-- Item (h) of the report (R142, R143). -/
def interpret (p : DecodedPacket) : Interpretation :=
  match keyMeaning p.commandKey with
  | .literal c => interpretLiteral c p.payload
  | .parameter _ e => interpretParameter e p.payload
  | .unrecognized => .unk

/-- One row of the dump: 16 bytes in two groups of 8, and their characters (R142 (a)). -/
structure DumpRow where
  left : List Byte
  right : List Byte
  ascii : List Char
  deriving DecidableEq, Repr

/-- The character of a byte: `.` for a non-printable one, else its ASCII character (R142 (a)). A printable byte of 0x80
or more has no ASCII character, and which one is shown is open (notes/assumptions/24.md). -/
def asciiOf (b : Byte) : Char :=
  if Config.printable b then if b.toNat < 0x80 then Char.ofNat b.toNat else Config.highChar b else '.'

/-- The rows of the dump, `rows` of them at most. -/
def dumpRows : Nat → List Byte → List DumpRow
  | 0, _ => []
  | _ + 1, [] => []
  | rows + 1, b :: bs =>
    ⟨(b :: bs).take 8, ((b :: bs).drop 8).take 8, ((b :: bs).take 16).map asciiOf⟩ :: dumpRows rows ((b :: bs).drop 16)

/-- The report of the Diagnostic Decoder, by content: items (a) to (h) (R142). -/
structure Report where
  dump : List DumpRow
  dirLabel : DirLabel
  devidB1 : Byte
  devidB2 : Byte
  description : String
  rawKey : Half
  declaredLength : Half
  payloadLength : Nat
  group : Byte
  device : Byte
  checksumComputed : Byte
  checksumObserved : Byte
  checksumPass : Bool
  interpretation : Interpretation
  deriving DecidableEq, Repr

/-- The bytes of the frame a packet was parsed from, from the packet alone: header, payload, trailer (R50, R95). Bytes
after the declared span are not in the packet (R99). -/
def packetBytes (p : DecodedPacket) : List Byte :=
  [p.dir, p.devidB1, p.devidB2, lo8 p.declaredLength.toNat, hi8 p.declaredLength.toNat, p.group, p.device,
    hi8 p.commandKey.toNat, lo8 p.commandKey.toNat] ++ (p.payload ++ [p.checksumObserved])

/-- The report of a packet (R142). Its dump is of the frame the packet holds (DEDUCED: notes/assumptions/22.md). -/
def reportOf (p : DecodedPacket) : Report where
  dump := dumpRows (packetBytes p).length (packetBytes p)
  dirLabel := p.dirLabel
  devidB1 := p.devidB1
  devidB2 := p.devidB2
  description := describe p.commandKey
  rawKey := p.commandKey
  declaredLength := p.declaredLength
  payloadLength := p.payloadLength
  group := p.group
  device := p.device
  checksumComputed := p.checksumComputed
  checksumObserved := p.checksumObserved
  checksumPass := p.checksumValid
  interpretation := interpret p

end Sys2Proof.Machine
end

