-- ==== Sys2Proof/Safety.lean ====
section
/-! DEFINITION. The terms the statements use: the invariants V1 to V6 of R21, runs of instructions and of steps, the
fairness of the timebase (R188), and what a host can observe. -/
namespace Sys2Proof.Machine

/-- Every byte below `CNT` holds a value, and the buffer is in its canonical form (R11, R12). -/
def BufferValid (s : State) : Prop := s.rxbuf.wf ∧ ∀ a, a < s.cnt → (s.rxbuf.load a).isSome

/-- V1 (R21): `0 <= CNT <= 256`. -/
def V1 (s : State) : Prop := s.cnt ≤ Config.maxFrame

/-- V2 (R21): `CNT = 0` in `Idle`, `TimedOut` and `TransportError`. -/
def V2 (s : State) : Prop := (s.state = .idle ∨ s.state = .timedOut ∨ s.state = .transportError) → s.cnt = 0

/-- V3 (R21), for a given `DEADLINE_TICKS`: in `Accumulating` the deadline has not passed and the frame is not whole. -/
def V3 (deadline : Nat) (s : State) : Prop :=
  s.state = .accumulating →
    s.timer < deadline ∧ (s.cnt < Config.hdrLen ∨ ∀ total, s.bufferTotal = some total → s.cnt < total)

/-- V4 (R21): in `Complete`, `CNT` is the total the frame itself declares. -/
def V4 (s : State) : Prop :=
  s.state = .complete → Config.preLen ≤ s.cnt ∧ s.cnt ≤ Config.maxFrame ∧ s.bufferTotal = some s.cnt

/-- V5 (R21): in `Complete`, `RESULT` is `Ok` with at least ten bytes and `Malformed` with fewer. -/
def V5 (s : State) : Prop :=
  s.state = .complete → ∃ r, s.result = some r ∧ (r.isOk = true ↔ Config.minFrame ≤ s.cnt)

/-- V6 (R21), for a given `DEADLINE_TICKS`: the timer's range, its end only in `TimedOut`. -/
def V6 (deadline : Nat) (s : State) : Prop := s.timer ≤ deadline ∧ (s.timer = deadline → s.state = .timedOut)

/-- The invariants an induction over steps needs: V1 to V4, V6 and the buffer's validity (R12, R21). V5 follows. -/
structure Inv (s : State) : Prop where
  buffer : BufferValid s
  v1 : V1 s
  v2 : V2 s
  v3 : V3 Config.deadlineTicks s
  v4 : V4 s
  v6 : V6 Config.deadlineTicks s

/-- Run a list of instructions, stopping at the first fault or refusal. -/
def execList : List Instr → State → Result
  | [], s => .next s
  | i :: is, s =>
    match exec i s with
    | .next t => execList is t
    | .fault f => .fault f
    | .refused r => .refused r

/-- Neither RESET nor START: an instruction that cannot begin a run or leave a terminal state (R113, R163). -/
def keepsRun (i : Instr) : Bool := i != .reset && i != .start

/-- Neither RESET nor CS_CLEAR: an instruction that does not restart the streaming sum (R85). -/
def keepsSum (i : Instr) : Bool := i != .reset && i != .csClear

/-- The byte an instruction adds to the streaming sum, as a list of at most one (R83). -/
def addedBy : Instr → List Byte
  | .csAdd b => [b]
  | _ => []

/-- The bytes a list of instructions adds to the streaming sum, in order (R85). -/
def addedBytes (is : List Instr) : List Byte := is.flatMap addedBy

/-- How many of the instructions are TICK (R120). -/
def tickCount (is : List Instr) : Nat := is.countP (· == .tick)

/-- Two states a host cannot tell apart: equal `STATE`, `CNT`, `TIMER`, `ACC` and equal bytes below `CNT`, and so equal
outputs (R12, R20). What stands in the buffer above `CNT` is free. -/
def SameToHost (s t : State) : Prop :=
  s.state = t.state ∧ s.cnt = t.cnt ∧ s.timer = t.timer ∧ s.acc = t.acc ∧ ∀ a, s.readByte a = t.readByte a

/-- The function calls and the frame rows: what answers a caller and changes no state of the block (R67, R107). -/
def isFunction : Instr → Bool
  | .checksum _ => true
  | .verify _ => true
  | .encode _ _ => true
  | .decode _ => true
  | .dirH2d _ _ => true
  | .dirD2h _ _ => true
  | .keyResponse _ _ => true
  | .keyParamSet _ _ _ => true
  | .keyParamRead _ _ _ => true
  | .keySetPattern _ _ => true
  | .keyReadPattern _ _ => true
  | .frame _ _ => true
  | .reset => false
  | .start => false
  | .rxData _ => false
  | .rxWouldBlock => false
  | .rxError => false
  | .tick => false
  | .csClear => false
  | .csAdd _ => false

/-- Two answers a host cannot tell apart: next states that look the same and reply the same, or the same stop. -/
def SameAnswer : Result → Result → Prop
  | .next t, .next u => SameToHost t u ∧ t.reply = u.reply
  | .fault f, .fault g => f = g
  | .refused r, .refused q => r = q
  | _, _ => False

/-- An event of a transport that stays silent, or a tick (R120, P11): TICK, RX_WOULD_BLOCK, an empty RX_DATA. -/
def silentOrTick (i : Instr) : Bool := i == .tick || i == .rxWouldBlock || i == .rxData []

/-- `s` with further cycles presented after those already there. -/
def State.presentAfter (s : State) (cs : List Cycle) : State := { s with inbox := s.inbox ++ cs }

/-- An infinite run: before every step the outside agents may present further cycles, whatever they like (R6, R188). -/
structure Run where
  /-- The cycles presented before step `n`. -/
  arrivals : Nat → List Cycle
  /-- The state before them. -/
  states : Nat → State
  /-- Every step goes on. -/
  steps : ∀ n, step ((states n).presentAfter (arrivals n)) = .next (states (n + 1))

/-- The state in which step `n` of a run is taken. -/
def Run.presented (r : Run) (n : Nat) : State := (r.states n).presentAfter (r.arrivals n)

/-- The step at this state takes a TICK. -/
def takesTick (s : State) : Prop := ∃ q s', fetch s = .request q s' ∧ decode q = .instr .tick

/-- Weak fairness of TICK (R188): if `STATE = Accumulating` from some step on, TICK occurs infinitely often. Nothing is
asked of the transport. -/
def Run.FairTicks (r : Run) : Prop :=
  (∃ N, ∀ n, N ≤ n → (r.states n).state = .accumulating) → ∀ N, ∃ n, N ≤ n ∧ takesTick (r.presented n)

end Sys2Proof.Machine
end

