-- ==== Sys2Proof/Certificates/Slice0/Obligations.lean ====
section
/-! DEFINITION. The statements for the provers, in the order of OBLIGATIONS.json. Each docstring names the rule of
spec/ it formalises. `Config.rxBeatMax`, `Config.deadlineTicks` and `Config.sameCycleOrder` are opaque, so a statement
that names one holds for every value R5 allows. -/

open Sys2Proof Sys2Proof.Machine

/-! ## Reset and the invariants -/

/-- R22: what reset leaves. No byte of the buffer can be read. -/
def Obligations.ResetStateIsIdleAndEmpty : Prop :=
  State.reset.state = .idle ∧ State.reset.cnt = 0 ∧ State.reset.timer = 0 ∧ State.reset.acc = 0#8 ∧
  State.reset.result = none ∧ ∀ a, State.reset.readByte a = none

/-- R175: RESET from every state; `RXBUF` is not written. -/
def Obligations.ResetClearsAllButTheBuffer : Prop :=
  ∀ s : State, ∃ t, exec .reset s = .next t ∧
    t = { s with state := .idle, cnt := 0, timer := 0, acc := 0#8 } ∧ t.result = none ∧ ∀ a, t.readByte a = none

/-- R21 at reset. -/
def Obligations.ResetMeetsTheInvariants : Prop := Inv State.reset ∧ V5 State.reset

/-- R21: V1 to V6 (and the buffer's validity) are kept by every step from every state that has them. -/
def Obligations.EveryStepKeepsTheInvariants : Prop := ∀ s t : State, Inv s → step s = .next t → Inv t ∧ V5 t

/-- R21 as it is said: the invariants hold after every step of every run from reset on, whatever the outside agents
present and in whatever clock cycles.
The inbox is the model's choice (notes/assumptions/1.md). -/
def Obligations.EveryReachableStateMeetsTheInvariants : Prop :=
  ∀ (k : Nat) (events : List Cycle) (t : State),
    Host.Core.run Sys2Proof.core k { State.reset with inbox := events } = .next t →
    V1 t ∧ V2 t ∧ V3 Config.deadlineTicks t ∧ V4 t ∧ V5 t ∧ V6 Config.deadlineTicks t

/-- V5 of R21: in `Complete` the result is `Ok` exactly with ten bytes or more. -/
def Obligations.CompleteResultIsOkFromTenBytes : Prop := ∀ s : State, Inv s → V5 s

/-- The model's faults are never reached from a state with the invariants (notes/assumptions/9.md). -/
def Obligations.NoInstructionFaultsUnderTheInvariants : Prop :=
  ∀ (s : State) (i : Instr) (f : Fault), Inv s → exec i s ≠ .fault f

/-- The only two refusals of an instruction: VERIFY of nothing (R81), a beat over its bound in `Accumulating` (R112). A
step also refuses a request that is no operation: StepRunsTheDecodedInstruction.
That a beat is refused in `Accumulating` only is DEDUCED (notes/assumptions/10.md). -/
def Obligations.OnlyTwoRefusals : Prop :=
  ∀ (s : State) (i : Instr) (r : Refusal), exec i s = .refused r →
    (i = .verify [] ∧ r = .verifyEmpty) ∨
    (∃ d, i = .rxData d ∧ s.state = .accumulating ∧ min Config.rxBeatMax (256 - s.cnt) < d.length ∧ r = .beatTooLarge)

/-! ## The checksum unit -/

/-- R82. -/
def Obligations.CsClearZeroesTheAccumulator : Prop := ∀ s : State, exec .csClear s = .next { s with acc := 0#8 }

/-- R83, with its corner cases: only `ACC` changes, and the carry out of bit 7 is dropped. -/
def Obligations.CsAddAddsModulo256 : Prop :=
  ∀ (s : State) (b : Byte), ∃ t, exec (.csAdd b) s = .next t ∧
    t = { s with acc := t.acc } ∧ t.acc.toNat = (s.acc.toNat + b.toNat) % 256

/-- R84: the three outputs. -/
def Obligations.StreamingOutputsFollowTheAccumulator : Prop :=
  ∀ s : State, s.csSum = s.acc ∧ s.csChk.toNat = (256 - s.acc.toNat) % 256 ∧ (s.csZero = true ↔ s.acc = 0#8)

/-- R85: after CS_CLEAR and any instructions with no RESET and no further CS_CLEAR, the port holds the sum of the added
bytes, its trailer and its verdict; and a list of CS_ADDs always completes. -/
def Obligations.StreamingPortComputesTheFunctions : Prop :=
  (∀ (s t : State) (is : List Instr), (∀ i ∈ is, keepsSum i = true) → execList (.csClear :: is) s = .next t →
    t.acc.toNat = sumBytes (addedBytes is) % 256 ∧ t.csChk = checksumOf (addedBytes is) ∧
    (addedBytes is ≠ [] → verifyOf (addedBytes is) = some t.csZero) ∧ (addedBytes is = [] → t.csZero = true)) ∧
  ∀ (s : State) (bs : List Byte), ∃ t, execList (.csClear :: bs.map Instr.csAdd) s = .next t ∧
    addedBytes (bs.map Instr.csAdd) = bs

/-- R80: the formula, the empty input, the two's complement of the sum, and that order does not matter.
That the answer stands in a reply port is the model's choice (notes/assumptions/2.md). -/
def Obligations.ChecksumReturnsTheNegatedSum : Prop :=
  ∀ (s : State) (b c : List Byte),
    exec (.checksum b) s = .next { s with reply := some (.byte (checksumOf b)) } ∧
    (checksumOf b).toNat = (256 - sumBytes b % 256) % 256 ∧ checksumOf [] = 0#8 ∧
    checksumOf b = -(BitVec.ofNat 8 (sumBytes b)) ∧ (b.Perm c → checksumOf b = checksumOf c)

/-- R81: the trailer is the last byte; one byte verifies exactly when it is 0; nothing is refused.
That the answer stands in a reply port is the model's choice (notes/assumptions/2.md). -/
def Obligations.VerifyComparesTheTrailer : Prop :=
  ∀ (s : State) (body : List Byte) (t : Byte),
    exec (.verify (body ++ [t])) s = .next { s with reply := some (.bool (checksumOf body == t)) } ∧
    exec (.verify [t]) s = .next { s with reply := some (.bool (t == 0#8)) } ∧
    exec (.verify []) s = .refused .verifyEmpty

/-- R86: the checksum law in both directions, and its consequence: exactly one trailer verifies. -/
def Obligations.VerifyHoldsExactlyWhenTheSumIsZero : Prop :=
  (∀ b : List Byte, b ≠ [] → (verifyOf b = some true ↔ sumBytes b % 256 = 0)) ∧
  ∀ body : List Byte, ∃ t, verifyOf (body ++ [t]) = some true ∧ ∀ u, verifyOf (body ++ [u]) = some true → u = t

/-! ## The frame builder and the parser -/

/-- R90: `BufferTooLarge` exactly from 247 bytes on, and otherwise the frame byte for byte.
That the answer stands in a reply port is the model's choice (notes/assumptions/2.md). -/
def Obligations.EncodeBuildsTheFrame : Prop :=
  ∀ (s : State) (key : Half) (p : List Byte),
    (247 ≤ p.length → exec (.encode key p) s = .next { s with reply := some (.encoded .bufferTooLarge) }) ∧
    (p.length ≤ 246 → ∃ body : List Byte,
      body = [0xAA#8, 0x00#8, 0x00#8, lo8 (p.length + 5), hi8 (p.length + 5), 0x00#8, 0x00#8, hi8 key.toNat, lo8 key.toNat] ++ p ∧
      exec (.encode key p) s = .next { s with reply := some (.encoded (.ok (body ++ [checksumOf body]))) } ∧
      (body ++ [checksumOf body]).length = 10 + p.length ∧ hi8 (p.length + 5) = 0x00#8)

/-- R91: the length field of a built frame, and the frame's length. -/
def Obligations.EncodeLengthFieldIsConsistent : Prop :=
  ∀ (key : Half) (p : List Byte), p.length ≤ 246 → ∃ (f : List Byte) (lo hi : Byte),
    buildFrame key p = .ok f ∧ f[3]? = some lo ∧ f[4]? = some hi ∧ (u16le lo hi).toNat = p.length + 5 ∧
    f.length = 5 + (u16le lo hi).toNat ∧ f.length = 10 + p.length

/-- R94: the round trip through the parser, and through the reassembler in any beats the bound admits. -/
def Obligations.EncodedFrameComesBackWhole : Prop :=
  ∀ (key : Half) (p : List Byte), p.length ≤ 246 → ∃ (f : List Byte) (c : Byte),
    buildFrame key p = .ok f ∧
    parseFrame f = .ok
      { dir := 0xAA#8, dirLabel := .h2d, devidB1 := 0#8, devidB2 := 0#8, deviceId := 0#16,
        declaredLength := BitVec.ofNat 16 (p.length + 5), payloadLength := p.length, group := 0#8, device := 0#8,
        commandKey := key, payload := p, checksumObserved := c, checksumComputed := c, checksumValid := true } ∧
    ∀ (s : State) (beats : List (List Byte)), s.state ≠ .accumulating → beats.flatten = f →
      (∀ b ∈ beats, b.length ≤ Config.rxBeatMax) →
      ∃ t, execList (.start :: beats.map Instr.rxData) s = .next t ∧ t.state = .complete ∧ t.cnt = f.length ∧
        t.received = some f ∧ t.result = some (parseFrame f) ∧ t.timer = 0 ∧ t.acc = s.acc ∧ t.reply = s.reply ∧
        t.inbox = s.inbox

/-- R95: the three errors in their order, and every field of the packet.
That the answer stands in a reply port is the model's choice (notes/assumptions/2.md). -/
def Obligations.DecodeParsesByTheLengthField : Prop :=
  (∀ (s : State) (b : List Byte), exec (.decode b) s = .next { s with reply := some (.decoded (parseFrame b)) }) ∧
  (∀ b : List Byte, b.length < 9 → parseFrame b = .malformed .headerShort) ∧
  ∀ (h : Header) (rest b : List Byte) (l : Nat), b = h.bytes ++ rest → l = (u16le h.lenLo h.lenHi).toNat →
    (l < 5 → parseFrame b = .malformed .lengthUnderflow) ∧
    (5 ≤ l → b.length < 5 + l → parseFrame b = .malformed .short) ∧
    (5 ≤ l → 5 + l ≤ b.length → ∃ chk, b[4 + l]? = some chk ∧
      parseFrame b = .ok
      { dir := h.dir,
        dirLabel := if h.dir = 0xAA#8 then .h2d else if h.dir = 0xAB#8 then .d2h else .unknown,
        devidB1 := h.devid1, devidB2 := h.devid2, deviceId := u16le h.devid1 h.devid2,
        declaredLength := u16le h.lenLo h.lenHi, payloadLength := l - 5, group := h.group, device := h.device,
        commandKey := u16be h.cmdHi h.cmdLo, payload := (b.take (4 + l)).drop 9, checksumObserved := chk,
        checksumComputed := checksumOf (b.take (4 + l)), checksumValid := checksumOf (b.take (4 + l)) == chk })

/-- R99: bytes after the declared span change nothing, for `L = 4` too, where both sides are `LengthUnderflow` (R98). For
`L` at most 3 the span is shorter than the header, and the two sides are `Malformed` for different reasons (R95, R97). -/
def Obligations.DecodeIgnoresBytesAfterTheFrame : Prop :=
  ∀ (h : Header) (rest : List Byte) (l : Nat), l = (u16le h.lenLo h.lenHi).toNat → 4 ≤ l →
    parseFrame (h.bytes ++ rest) = parseFrame ((h.bytes ++ rest).take (5 + l))

/-- R105, R100, R142: on the `Ok` path the payload is as long as the length field says; a buffer of at most 256 bytes
bounds the length field by 251 and the payload by 246; and the packet alone gives back every byte of its frame, so that
a report of the packet can dump them. That these are the bytes the report dumps is DEDUCED (notes/assumptions/22.md). -/
def Obligations.DecodedPayloadHasTheDeclaredLength : Prop :=
  ∀ (b : List Byte) (p : DecodedPacket), parseFrame b = .ok p →
    p.payloadLength = p.declaredLength.toNat - 5 ∧ p.payload.length = p.payloadLength ∧ 5 ≤ p.declaredLength.toNat ∧
    (p.declaredLength.toNat = 5 → p.payload = [] ∧ b[9]? = some p.checksumObserved) ∧
    (b.length ≤ 256 → p.declaredLength.toNat ≤ 251 ∧ p.payloadLength ≤ 246) ∧
    packetBytes p = b.take (5 + p.declaredLength.toNat)

/-- R101: the label follows the direction byte, which is the frame's first; every direction is accepted. -/
def Obligations.DirectionLabelFollowsByteZero : Prop :=
  ∀ (b : List Byte) (p : DecodedPacket), parseFrame b = .ok p →
    b.head? = some p.dir ∧ (p.dirLabel = .h2d ↔ p.dir = 0xAA#8) ∧ (p.dirLabel = .d2h ↔ p.dir = 0xAB#8) ∧
    (p.dirLabel = .unknown ↔ p.dir ≠ 0xAA#8 ∧ p.dir ≠ 0xAB#8)

/-- R103, R104, R106: whether a parse succeeds depends on the two length bytes and the number of bytes alone: no
checksum, direction, device-id, address, key or payload makes it fail; the checksum's verdict is in the packet. -/
def Obligations.OnlyLengthsCanMakeAParseFail : Prop :=
  (∀ (h h' : Header) (rest rest' : List Byte), h.lenLo = h'.lenLo → h.lenHi = h'.lenHi → rest.length = rest'.length →
    (parseFrame (h.bytes ++ rest)).isOk = (parseFrame (h'.bytes ++ rest')).isOk) ∧
  ∀ (b : List Byte) (p : DecodedPacket), parseFrame b = .ok p →
    p.checksumValid = (p.checksumComputed == p.checksumObserved) ∧
    (p.checksumValid = true ↔ sumBytes (b.take (5 + p.declaredLength.toNat)) % 256 = 0)

/-- R107, R157: a function or a frame shown to the parser changes nothing but the reply, whatever it answers.
That the answer stands in a reply port, and that a frame row is an operation with an answer, are the model's choices
(notes/assumptions/2.md, 5.md). -/
def Obligations.FunctionsChangeNoState : Prop :=
  ∀ (i : Instr) (s t : State), isFunction i = true → exec i s = .next t →
    t.state = s.state ∧ t.rxbuf = s.rxbuf ∧ t.cnt = s.cnt ∧ t.timer = s.timer ∧ t.acc = s.acc ∧ t.inbox = s.inbox ∧
    t.reply.isSome = true

/-! ## The frame rows -/

/-- R101 for the two direction rows: the reply is all rows that apply and the parse; the row is among them, the other
direction's is not, and the label is the row's.
That a row is an operation with this answer is the model's choice (notes/assumptions/5.md, 2.md). -/
def Obligations.DirectionRowsLabelTheFrame : Prop :=
  ∀ (s : State) (h : AfterDir) (rest : List Byte),
    (∃ r, exec (.dirH2d h rest) s = .next { s with reply := some (.classified (rowsOf (h.header 0xAA#8)) r) } ∧
      r = parseFrame ((h.header 0xAA#8).bytes ++ rest) ∧ FrameRow.dirH2d ∈ rowsOf (h.header 0xAA#8) ∧
      FrameRow.dirD2h ∉ rowsOf (h.header 0xAA#8) ∧ ∀ p, r = .ok p → p.dirLabel = .h2d) ∧
    (∃ r, exec (.dirD2h h rest) s = .next { s with reply := some (.classified (rowsOf (h.header 0xAB#8)) r) } ∧
      r = parseFrame ((h.header 0xAB#8).bytes ++ rest) ∧ FrameRow.dirD2h ∈ rowsOf (h.header 0xAB#8) ∧
      FrameRow.dirH2d ∉ rowsOf (h.header 0xAB#8) ∧ ∀ p, r = .ok p → p.dirLabel = .d2h)

/-- R63, R64 for the rows of one key: the reply is all rows that apply and the parse; the row is among them, and the key
is reported as it is.
That a row is an operation with this answer is the model's choice (notes/assumptions/5.md, 2.md). -/
def Obligations.KeyRowsReportTheirKey : Prop :=
  ∀ (s : State) (h : BeforeKey) (rest : List Byte),
    (∃ r, exec (.keyResponse h rest) s =
        .next { s with reply := some (.classified (rowsOf (h.header 0xFF#8 0xFF#8)) r) } ∧
      r = parseFrame ((h.header 0xFF#8 0xFF#8).bytes ++ rest) ∧ FrameRow.keyResponse ∈ rowsOf (h.header 0xFF#8 0xFF#8) ∧
      ∀ p, r = .ok p → p.commandKey = 0xFFFF#16) ∧
    (∃ r, exec (.keySetPattern h rest) s =
        .next { s with reply := some (.classified (rowsOf (h.header 0x00#8 0x62#8)) r) } ∧
      r = parseFrame ((h.header 0x00#8 0x62#8).bytes ++ rest) ∧ FrameRow.keySetPattern ∈ rowsOf (h.header 0x00#8 0x62#8) ∧
      FrameRow.keyParamSet ∈ rowsOf (h.header 0x00#8 0x62#8) ∧ ∀ p, r = .ok p → p.commandKey = 0x0062#16) ∧
    (∃ r, exec (.keyReadPattern h rest) s =
        .next { s with reply := some (.classified (rowsOf (h.header 0x80#8 0x62#8)) r) } ∧
      r = parseFrame ((h.header 0x80#8 0x62#8).bytes ++ rest) ∧ FrameRow.keyReadPattern ∈ rowsOf (h.header 0x80#8 0x62#8) ∧
      FrameRow.keyParamRead ∈ rowsOf (h.header 0x80#8 0x62#8) ∧ ∀ p, r = .ok p → p.commandKey = 0x8062#16)

/-- R65 for the two parameter rows: the reply is all rows that apply and the parse; the row is among them exactly for a
low byte of 0x61 to 0xAB, and the read variant's key is the set variant's with bit 15 set.
That a row is an operation with this answer is the model's choice (notes/assumptions/5.md, 2.md). -/
def Obligations.ParameterRowsReportTheirKey : Prop :=
  ∀ (s : State) (h : BeforeKey) (lo : Byte) (rest : List Byte),
    (∃ r, exec (.keyParamSet h lo rest) s = .next { s with reply := some (.classified (rowsOf (h.header 0x00#8 lo)) r) } ∧
      r = parseFrame ((h.header 0x00#8 lo).bytes ++ rest) ∧
      (FrameRow.keyParamSet ∈ rowsOf (h.header 0x00#8 lo) ↔ 0x61 ≤ lo.toNat ∧ lo.toNat ≤ 0xAB) ∧
      ∀ p, r = .ok p → p.commandKey.toNat = lo.toNat) ∧
    (∃ r, exec (.keyParamRead h lo rest) s = .next { s with reply := some (.classified (rowsOf (h.header 0x80#8 lo)) r) } ∧
      r = parseFrame ((h.header 0x80#8 lo).bytes ++ rest) ∧
      (FrameRow.keyParamRead ∈ rowsOf (h.header 0x80#8 lo) ↔ 0x61 ≤ lo.toNat ∧ lo.toNat ≤ 0xAB) ∧
      ∀ p, r = .ok p → p.commandKey.toNat = 0x8000 + lo.toNat)

/-- R50, R66: a frame with any header is answered with all rows that apply and its parse, and no value of any field is
an error of its own.
That a row is an operation with this answer is the model's choice (notes/assumptions/5.md, 2.md). -/
def Obligations.FrameRowParsesAnyHeader : Prop :=
  ∀ (s : State) (h : Header) (rest : List Byte), ∃ r,
    exec (.frame h rest) s = .next { s with reply := some (.classified (rowsOf h) r) } ∧
    r = parseFrame (h.bytes ++ rest) ∧ FrameRow.frame ∈ rowsOf h ∧
    ((u16le h.lenLo h.lenHi).toNat = rest.length + 4 → 1 ≤ rest.length → ∃ p, r = .ok p)

/-- R63 to R65, R70 (b): the rows that apply to a header, by its direction byte and its key. -/
def Obligations.RowsFollowDirectionAndKey : Prop :=
  ∀ h : Header,
    (FrameRow.dirH2d ∈ rowsOf h ↔ h.dir = 0xAA#8) ∧ (FrameRow.dirD2h ∈ rowsOf h ↔ h.dir = 0xAB#8) ∧
    (FrameRow.keyResponse ∈ rowsOf h ↔ headerKey h = 0xFFFF#16) ∧
    (FrameRow.keyParamSet ∈ rowsOf h ↔ 0x0061 ≤ (headerKey h).toNat ∧ (headerKey h).toNat ≤ 0x00AB) ∧
    (FrameRow.keyParamRead ∈ rowsOf h ↔ 0x8061 ≤ (headerKey h).toNat ∧ (headerKey h).toNat ≤ 0x80AB) ∧
    (FrameRow.keySetPattern ∈ rowsOf h ↔ headerKey h = 0x0062#16) ∧
    (FrameRow.keyReadPattern ∈ rowsOf h ↔ headerKey h = 0x8062#16) ∧ FrameRow.frame ∈ rowsOf h

/-! ## The reassembler -/

/-- R114. -/
def Obligations.StartBeginsARunOrIsIgnored : Prop :=
  ∀ s : State, ∃ t, exec .start s = .next t ∧ t.result = none ∧
    (s.state ≠ .accumulating → t = { s with state := .accumulating, cnt := 0, timer := 0 }) ∧
    (s.state = .accumulating → t = s)

/-- R115, with its frame: the bytes stored at `CNT` upward and nowhere else, the length test once after the whole beat
from the ninth byte on, `TIMER` not written; an empty beat changes nothing; no effect outside
`Accumulating`, as R113's table says. That this holds for a beat of any length, where R112 bounds it in `Accumulating`
only, is DEDUCED (notes/assumptions/10.md). -/
def Obligations.RxDataAppendsThenTestsTheLength : Prop :=
  (∀ (s : State) (d : List Byte), Inv s → s.state = .accumulating → d.length ≤ min Config.rxBeatMax (256 - s.cnt) →
    ∃ t, exec (.rxData d) s = .next t ∧
      t.timer = s.timer ∧ t.acc = s.acc ∧ t.reply = s.reply ∧ t.inbox = s.inbox ∧
      (∀ i, (h : i < d.length) → t.rxbuf.load (s.cnt + i) = some d[i]) ∧
      (∀ a, a < s.cnt ∨ s.cnt + d.length ≤ a → t.rxbuf.load a = s.rxbuf.load a) ∧
      (s.cnt + d.length < 9 → t.state = .accumulating ∧ t.cnt = s.cnt + d.length) ∧
      (9 ≤ s.cnt + d.length → ∃ lo hi, t.rxbuf.load 3 = some lo ∧ t.rxbuf.load 4 = some hi ∧
        (5 + (u16le lo hi).toNat ≤ s.cnt + d.length →
          t.state = .complete ∧ t.cnt = 5 + (u16le lo hi).toNat ∧
          ∃ frame, t.rxbuf.loadList 0 t.cnt = some frame ∧ t.result = some (parseFrame frame)) ∧
        (s.cnt + d.length < 5 + (u16le lo hi).toNat → t.state = .accumulating ∧ t.cnt = s.cnt + d.length)) ∧
      (d = [] → t = s)) ∧
  ∀ (s : State) (d : List Byte), s.state ≠ .accumulating → exec (.rxData d) s = .next s

/-- R112: a beat over `min(RX_BEAT_MAX, 256 - CNT)` in `Accumulating` is refused. -/
def Obligations.RxDataOverItsBoundIsRefused : Prop :=
  ∀ (s : State) (d : List Byte), s.state = .accumulating → min Config.rxBeatMax (256 - s.cnt) < d.length →
    exec (.rxData d) s = .refused .beatTooLarge

/-- R116. -/
def Obligations.RxWouldBlockChangesNothing : Prop := ∀ s : State, exec .rxWouldBlock s = .next s

/-- R117. -/
def Obligations.RxErrorEndsTheRun : Prop :=
  ∀ s : State, (s.state = .accumulating → ∃ t, exec .rxError s = .next t ∧
      t = { s with state := .transportError, cnt := 0 } ∧ t.result = none ∧ t.runError = some .transportError) ∧
    (s.state ≠ .accumulating → exec .rxError s = .next s)

/-- R119. -/
def Obligations.TickCountsToTheDeadline : Prop :=
  ∀ s : State, (s.state = .accumulating → s.timer + 1 ≠ Config.deadlineTicks →
      exec .tick s = .next { s with timer := s.timer + 1 }) ∧
    (s.state = .accumulating → s.timer + 1 = Config.deadlineTicks → ∃ t, exec .tick s = .next t ∧
      t = { s with timer := s.timer + 1, cnt := 0, state := .timedOut } ∧ t.result = none ∧
      t.runError = some .timeoutError) ∧
    (s.state ≠ .accumulating → exec .tick s = .next s)

/-- R120, R188: a run has ended once `DEADLINE_TICKS` ticks are counted, whatever else happens in it; and under weak
fairness of TICK no infinite run of the machine stays in `Accumulating` for ever, whatever the transport does. That
requests reach the machine by its inbox is the model's choice (notes/assumptions/1.md). -/
def Obligations.RunEndsWithinTheDeadline : Prop :=
  (∀ (s t : State) (is : List Instr), Inv s → s.state = .accumulating → (∀ i ∈ is, keepsRun i = true) →
    execList is s = .next t → Config.deadlineTicks ≤ s.timer + tickCount is →
    t.state = .complete ∨ t.state = .timedOut ∨ t.state = .transportError) ∧
  ∀ r : Run, Inv (r.states 0) → r.FairTicks → ∀ N, ∃ n, N ≤ n ∧ (r.states n).state ≠ .accumulating

/-- R120 with a silent transport (S4, P11): the run times out exactly at the `DEADLINE_TICKS`-th tick. -/
def Obligations.SilentRunTimesOutExactlyAtTheDeadline : Prop :=
  ∀ (s : State) (is : List Instr), s.state ≠ .accumulating → (∀ i ∈ is, silentOrTick i = true) →
    ∃ t, execList (.start :: is) s = .next t ∧ t.cnt = 0 ∧
      (tickCount is < Config.deadlineTicks → t.state = .accumulating ∧ t.timer = tickCount is) ∧
      (Config.deadlineTicks ≤ tickCount is → t.state = .timedOut ∧ t.timer = Config.deadlineTicks)

/-- R118: `Complete` is entered only by an RX_DATA that leaves at least nine bytes and at least the declared total, and
`CNT` is then that total: never a false `Complete`. -/
def Obligations.CompleteIsEnteredOnlyWithAWholeFrame : Prop :=
  ∀ (i : Instr) (s t : State), s.state ≠ .complete → exec i s = .next t → t.state = .complete →
    ∃ d, i = .rxData d ∧ s.state = .accumulating ∧ 9 ≤ s.cnt + d.length ∧ t.cnt ≤ s.cnt + d.length ∧
      t.bufferTotal = some t.cnt

/-- R122: a declared length of 252 or more never completes, whatever arrives. -/
def Obligations.OversizedLengthNeverCompletes : Prop :=
  ∀ (s t : State) (is : List Instr) (l : Half), Inv s → s.state = .accumulating → 9 ≤ s.cnt → s.bufferLength = some l →
    252 ≤ l.toNat → (∀ i ∈ is, keepsRun i = true) → execList is s = .next t → t.state ≠ .complete

/-- R123: a declared length of at most 4 completes with the ninth byte and is `Malformed`. -/
def Obligations.UndersizedLengthCompletesMalformed : Prop :=
  ∀ (s : State) (d : List Byte) (lo hi : Byte), Inv s → s.state = .accumulating →
    d.length ≤ min Config.rxBeatMax (256 - s.cnt) → 9 ≤ s.cnt + d.length →
    (s.rxbuf.storeList s.cnt d).load 3 = some lo → (s.rxbuf.storeList s.cnt d).load 4 = some hi → (u16le lo hi).toNat ≤ 4 →
    ∃ t, exec (.rxData d) s = .next t ∧ t.state = .complete ∧ t.cnt = 5 + (u16le lo hi).toNat ∧
      ((u16le lo hi).toNat ≤ 3 → t.result = some (.malformed .headerShort)) ∧
      ((u16le lo hi).toNat = 4 → t.result = some (.malformed .lengthUnderflow))

/-- R35: where the beats cut the stream changes nothing a host can see. -/
def Obligations.BeatBoundariesDoNotMatter : Prop :=
  ∀ (s : State) (xs ys : List (List Byte)), Inv s → s.state = .accumulating → xs.flatten = ys.flatten →
    xs.flatten.length ≤ 256 - s.cnt → (∀ b ∈ xs, b.length ≤ Config.rxBeatMax) → (∀ b ∈ ys, b.length ≤ Config.rxBeatMax) →
    ∃ t u, execList (xs.map Instr.rxData) s = .next t ∧ execList (ys.map Instr.rxData) s = .next u ∧ SameToHost t u

/-- R161: once a run is terminal, no later event but START and RESET changes the verdict or the frame. -/
def Obligations.FirstVerdictStands : Prop :=
  ∀ (s t : State) (is : List Instr), s.state.terminal = true → (∀ i ∈ is, keepsRun i = true) → execList is s = .next t →
    t.state = s.state ∧ t.cnt = s.cnt ∧ t.timer = s.timer ∧ t.rxbuf = s.rxbuf ∧ t.result = s.result

/-- R163, R113: outside `Accumulating` only START and RESET change `STATE`, and START begins with `CNT` and `TIMER` 0. -/
def Obligations.OnlyStartAndResetLeaveARestState : Prop :=
  ∀ (i : Instr) (s t : State), s.state ≠ .accumulating → exec i s = .next t → t.state ≠ s.state →
    (i = .start ∧ t.state = .accumulating ∧ t.cnt = 0 ∧ t.timer = 0) ∨ (i = .reset ∧ t.state = .idle)

/-- R26, R175: of what the host may send, only RESET ends a run; else a beat, an error or a tick does. -/
def Obligations.OnlyResetCancelsARun : Prop :=
  ∀ (i : Instr) (s t : State), s.state = .accumulating → exec i s = .next t → t.state ≠ .accumulating →
    (i = .reset ∧ t.state = .idle) ∨ (∃ d, i = .rxData d ∧ t.state = .complete) ∨
    (i = .rxError ∧ t.state = .transportError) ∨ (i = .tick ∧ t.state = .timedOut)

/-- R39: no instruction changes a byte below `CNT`. -/
def Obligations.BytesBelowCntAreNeverOverwritten : Prop :=
  ∀ (i : Instr) (s t : State) (a : Nat), exec i s = .next t → a < s.cnt → t.rxbuf.load a = s.rxbuf.load a

/-- R12, R30: only RX_DATA in `Accumulating` writes the buffer at all. -/
def Obligations.OnlyRxDataWritesTheBuffer : Prop :=
  ∀ (i : Instr) (s t : State), exec i s = .next t → t.rxbuf ≠ s.rxbuf → (∃ d, i = .rxData d) ∧ s.state = .accumulating

/-- R16: only CS_CLEAR, CS_ADD and RESET write `ACC`. -/
def Obligations.OnlyThePortAndResetWriteAcc : Prop :=
  ∀ (i : Instr) (s t : State), exec i s = .next t → t.acc ≠ s.acc → i = .csClear ∨ (∃ b, i = .csAdd b) ∨ i = .reset

/-- R15, R169: `TIMER` moves only by a tick in `Accumulating`, by one; an accepted START and RESET clear it. -/
def Obligations.TimerMovesOnlyByTicks : Prop :=
  ∀ (i : Instr) (s t : State), exec i s = .next t → t.timer ≠ s.timer →
    (i = .tick ∧ s.state = .accumulating ∧ t.timer = s.timer + 1) ∨
    (i = .start ∧ s.state ≠ .accumulating ∧ t.timer = 0) ∨ (i = .reset ∧ t.timer = 0)

/-- R12, D28, U13: no answer depends on a byte at or above `CNT`. -/
def Obligations.NothingDependsOnBytesAboveCnt : Prop :=
  ∀ (i : Instr) (s u : State), SameToHost s u → s.reply = u.reply →
    SameAnswer (exec i s) (exec i u) ∧ s.result = u.result

/-- R25: `RESULT` is the parse of `RXBUF[0:CNT]` in `Complete` and none elsewhere. -/
def Obligations.ResultIsTheParseInComplete : Prop :=
  ∀ s : State, (s.state ≠ .complete → s.result = none) ∧
    (s.state = .complete → ∀ frame, s.memRead 0 s.cnt = some frame → s.result = some (parseFrame frame))

/-! ## One clock cycle -/

/-- R124: RESET wins its cycle; else START, then the transport events and ticks in the order of the parameter, then
everything else, nothing lost and nothing added; and the machine takes the requests of a cycle in this order, the rest
of the cycle before the next cycle. That a RESET drops every other request of its cycle, that the others come last,
and that requests of one kind keep the order listed are the model's readings (notes/assumptions/12.md). -/
def Obligations.CycleIsSerialisedInOrder : Prop :=
  (∀ (o : Config.SameCycleOrder) (c : Cycle),
    ((∃ r ∈ c, Request.kind r = .reset) → ∃ r ∈ c, Request.kind r = .reset ∧ serialise o c = [r]) ∧
    ((∀ r ∈ c, Request.kind r ≠ .reset) → (serialise o c).Perm c ∧
      ∃ tail, serialise o c = ofKind .start c ++
        (if o = .rxFirst then ofKind .transport c ++ ofKind .tick c else ofKind .tick c ++ ofKind .transport c) ++ tail)) ∧
  ∀ (s : State) (c : Cycle) (cs : List Cycle), s.inbox = c :: cs →
    (c = [] → fetch s = .idle { s with inbox := cs }) ∧
    (c ≠ [] → ∃ r rs, serialise Config.sameCycleOrder c = r :: rs ∧ serialise Config.sameCycleOrder rs = rs ∧
      fetch s = .request r { s with inbox := if rs = [] then cs else rs :: cs })

/-- R124: the one situation its text names: the last tick and a completing beat in one cycle. -/
def Obligations.LastTickAgainstCompletingBeat : Prop :=
  ∀ (s t : State) (d : List Byte), s.state = .accumulating → s.timer + 1 = Config.deadlineTicks →
    exec (.rxData d) s = .next t → t.state = .complete →
    execList [.rxData d, .tick] s = .next t ∧
    ∃ u, execList [.tick, .rxData d] s = .next u ∧ u.state = .timedOut ∧ u.cnt = 0 ∧ u.timer = Config.deadlineTicks

/-! ## Encoding and the step -/

/-- R67, R70: decoding what the encoder writes gives the instruction back.
The form of a request is the model's choice (notes/assumptions/3.md). -/
def Obligations.DecodeOfEncodeIsTheInstruction : Prop :=
  ∀ i : Instr, i.WellFormed → decode (encode i) = .instr i

/-- R67, R70: the other direction: a request that decodes is the encoding of what it decodes to, which is well formed
but for the two operands the block refuses (R81, R112).
The form of a request is the model's choice (notes/assumptions/3.md). -/
def Obligations.EncodeOfDecodeIsTheRequest : Prop :=
  ∀ (r : Request) (i : Instr), decode r = .instr i →
    encode i = r ∧ (i.WellFormed ∨ i = .verify [] ∨ ∃ d, i = .rxData d ∧ 256 < d.length)

/-- R67, U5: codes 0x0 and 0xD to 0xF are no event: the block does not change.
That their operands are ignored is the model's choice (notes/assumptions/13.md). -/
def Obligations.ReservedCodesAreNoEvent : Prop :=
  ∀ (s : State) (code : BitVec 4) (operands : List Byte), code = 0x0#4 ∨ 0xD ≤ code.toNat →
    decode (.op code operands) = .noEvent ∧ step (s.present (.op code operands)) = .next s

/-- A step runs the decoded instruction, changes nothing where there is none, and refuses a request that is no
operation: the model's own frame of a step (notes/assumptions/1.md, 2.md, 3.md, 13.md). -/
def Obligations.StepRunsTheDecodedInstruction : Prop :=
  (∀ (s s' : State) (r : Request), fetch s = .request r s' →
    (∀ i, decode r = .instr i → step s = exec i { s' with reply := none }) ∧
    (decode r = .noEvent → step s = .next s') ∧
    (∀ why, decode r = .rejected why → step s = .refused (.undecodable why))) ∧
  (∀ s s' : State, fetch s = .idle s' → step s = .next s') ∧
  (∀ (s : State) (i : Instr), i.WellFormed → step (s.present (encode i)) = exec i { s with reply := none }) ∧
  ∀ s : State, s.inbox = [] → step s = .next s

/-- The requests of R67's table and the frames S1 and S2, written out, decode to what they stand for.
The form of a request is the model's choice (notes/assumptions/3.md).
That of the rows R70 lets apply the decoder picks KEY_SET_PATTERN and KEY_RESPONSE, and that a row is an operation, are
the model's choices too (notes/assumptions/6.md, 5.md). -/
def Obligations.WrittenOutRequestsDecode : Prop :=
  decode (.op 0x1#4 []) = .instr .reset ∧ decode (.op 0x2#4 []) = .instr .start ∧
  decode (.op 0x3#4 [0xAA#8, 0x00#8]) = .instr (.rxData [0xAA#8, 0x00#8]) ∧
  decode (.op 0x8#4 [0x3F#8]) = .instr (.csAdd 0x3F#8) ∧
  decode (.op 0xB#4 [0x00#8, 0x62#8, 0x03#8]) = .instr (.encode 0x0062#16 [0x03#8]) ∧
  decode (.frame [0xAA#8, 0#8, 0#8, 6#8, 0#8, 0#8, 0#8, 0#8, 0x62#8, 3#8, 0xEB#8]) =
    .instr (.keySetPattern ⟨0xAA#8, 0#8, 0#8, 6#8, 0#8, 0#8, 0#8⟩ [3#8, 0xEB#8]) ∧
  decode (.frame [0xAB#8, 0#8, 0#8, 8#8, 0#8, 0#8, 0#8, 0xFF#8, 0xFF#8, 0#8, 0x62#8, 0#8, 0xED#8]) =
    .instr (.keyResponse ⟨0xAB#8, 0#8, 0#8, 8#8, 0#8, 0#8, 0#8⟩ [0#8, 0x62#8, 0#8, 0xED#8])

/-! ## The surrounding software (outside the block, R3) -/

/-- R140, R143: the lookup succeeds below the table's length and raises from it on; and a packet with a parameter
command's key and a payload is interpreted by `payload[0]` in that command's table. -/
def Obligations.ValueLabelIsStrict : Prop :=
  (∀ (table : List String) (raw : Nat),
    (table.length ≤ raw → valueLabel table raw = .indexOutOfRange) ∧
    ((h : raw < table.length) → valueLabel table raw = .label table[raw])) ∧
  ∀ (p : DecodedPacket) (e : Config.ParamEntry) (v : Byte) (rest : List Byte), e ∈ Config.registry.params →
    p.commandKey = e.setKey ∨ p.commandKey = e.readKey → p.payload = v :: rest →
    interpret p = .value (valueLabel (valueTable e.table) v.toNat)

/-- R144: a response's echoed key is high byte first, its third byte indexes the response-status table, whose index 0
is "ok"; a packet with the response key is interpreted so. -/
def Obligations.ResponsePayloadIsReadHighByteFirst : Prop :=
  ∀ (key : Half) (status : Byte),
    responseOf [hi8 key.toNat, lo8 key.toNat, status] = some (key, status) ∧
    valueLabel (valueTable .responseStatus) 0 = .label "ok" ∧
    ∀ p : DecodedPacket, p.commandKey = 0xFFFF#16 → p.payload = [hi8 key.toNat, lo8 key.toNat, status] →
      interpret p = .response key (valueLabel (valueTable .responseStatus) status.toNat)

/-- R138, R135, R137, R65: what `describe` says of every key; the registry's two directions are inverse; set-pattern is
a parameter command; and which keys are in the parameter range. That no two commands share a key is DEDUCED from R135
(notes/assumptions/18.md); that a key of the parameter range without a parameter command is described as unrecognized is
the model's choice (notes/assumptions/23.md). -/
def Obligations.DescribeNamesEveryKey : Prop :=
  (∀ c, describe (literalKey c) = Config.literalName c) ∧ literalKey .response = 0xFFFF#16 ∧
  (∀ e ∈ Config.registry.params,
    describe e.setKey = "set " ++ e.name ∧ describe e.readKey = "read " ++ e.name ∧
    e.setKey.toNat = e.base.toNat ∧ e.readKey.toNat = 0x8000 + e.base.toNat) ∧
  (∀ key : Half, (∀ c, literalKey c ≠ key) → (∀ e ∈ Config.registry.params, e.setKey ≠ key ∧ e.readKey ≠ key) →
    describe key = if key.getLsbD 15 then "read unk" else "set unk") ∧
  (∀ (key : Half) (c : Command), commandOf key = some c ↔ wireKey c = some key) ∧
  (∃ e ∈ Config.registry.params, e.setKey = 0x0062#16 ∧ e.readKey = 0x8062#16 ∧
    commandOf 0x0062#16 = some (.parameter .set e.name) ∧ commandOf 0x8062#16 = some (.parameter .read e.name)) ∧
  ∀ (key : Half) (b : Byte), paramByte key = some b ↔
    0x61 ≤ b.toNat ∧ b.toNat ≤ 0xAB ∧ (key.toNat = b.toNat ∨ key.toNat = 0x8000 + b.toNat)
end

