-- ==== Sys2Proof/Laws/Bytes.lean ====
section
/-! SUPPORT. Lemmas of the byte notation and of the checksum functions. -/
namespace Sys2Proof.Machine

theorem byte_lt (b : Byte) : b.toNat < 256 := b.isLt

@[simp] theorem sumBytes_nil : sumBytes [] = 0 := rfl

@[simp] theorem sumBytes_cons (b : Byte) (bs : List Byte) : sumBytes (b :: bs) = b.toNat + sumBytes bs := rfl

@[simp] theorem sumBytes_append (xs ys : List Byte) : sumBytes (xs ++ ys) = sumBytes xs + sumBytes ys := by
  induction xs with
  | nil => simp
  | cons x xs ih => simp [ih, Nat.add_assoc]

theorem u16le_toNat (b0 b1 : Byte) : (u16le b0 b1).toNat = b0.toNat + 256 * b1.toNat := by
  have := byte_lt b0
  have := byte_lt b1
  rw [u16le, BitVec.toNat_ofNat, Nat.mod_eq_of_lt (by omega)]

theorem u16be_toNat (b0 b1 : Byte) : (u16be b0 b1).toNat = 256 * b0.toNat + b1.toNat := by
  have := byte_lt b0
  have := byte_lt b1
  rw [u16be, BitVec.toNat_ofNat, Nat.mod_eq_of_lt (by omega)]

theorem lo8_toNat (v : Nat) : (lo8 v).toNat = v % 256 := by
  rw [lo8, BitVec.toNat_ofNat]; omega

theorem hi8_toNat (v : Nat) : (hi8 v).toNat = v / 256 % 256 := by
  rw [hi8, BitVec.toNat_ofNat]; omega

/-- Splitting a 16-bit number into its bytes and assembling it again, little-endian. -/
theorem u16le_lo8_hi8 (v : Nat) (h : v < 65536) : (u16le (lo8 v) (hi8 v)).toNat = v := by
  rw [u16le_toNat, lo8_toNat, hi8_toNat]; omega

/-- The same, big-endian. -/
theorem u16be_hi8_lo8 (k : Half) : u16be (hi8 k.toNat) (lo8 k.toNat) = k := by
  have := k.isLt
  apply BitVec.eq_of_toNat_eq
  rw [u16be_toNat, lo8_toNat, hi8_toNat]; omega

theorem hi8_u16be (hi lo : Byte) : hi8 (u16be hi lo).toNat = hi := by
  have := byte_lt lo
  have := byte_lt hi
  apply BitVec.eq_of_toNat_eq
  rw [hi8_toNat, u16be_toNat]; omega

theorem lo8_u16be (hi lo : Byte) : lo8 (u16be hi lo).toNat = lo := by
  have := byte_lt lo
  apply BitVec.eq_of_toNat_eq
  rw [lo8_toNat, u16be_toNat]; omega

theorem checksumOf_toNat (bs : List Byte) : (checksumOf bs).toNat = (256 - sumBytes bs % 256) % 256 := by
  rw [checksumOf, BitVec.toNat_ofNat]; omega

/-- The trailer of a body brings its sum to 0 modulo 256, and no other byte does. -/
theorem checksumOf_eq_iff (bs : List Byte) (t : Byte) : checksumOf bs = t ↔ (sumBytes bs + t.toNat) % 256 = 0 := by
  have := byte_lt t
  rw [← BitVec.toNat_inj, checksumOf_toNat]; omega

theorem verifyOf_append (bs : List Byte) (t : Byte) : verifyOf (bs ++ [t]) = some (checksumOf bs == t) := by
  simp [verifyOf]

theorem verifyOf_eq_none_iff (bs : List Byte) : verifyOf bs = none ↔ bs = [] := by
  unfold verifyOf
  cases h : bs.getLast? with
  | none => simpa using List.getLast?_eq_none_iff.mp h
  | some t => simpa using (by rintro rfl; simp at h : bs ≠ [])

/-- VERIFY by the sum alone. -/
theorem verifyOf_of_ne_nil {b : List Byte} (h : b ≠ []) : verifyOf b = some (sumBytes b % 256 == 0) := by
  obtain ⟨body, t, rfl⟩ := (List.eq_nil_or_concat b).resolve_left h
  rw [List.concat_eq_append, verifyOf_append]
  have hiff := checksumOf_eq_iff body t
  by_cases hc : checksumOf body = t
  · have := hiff.mp hc
    simp [hc, this]
  · have : ¬ (sumBytes body + t.toNat) % 256 = 0 := fun h => hc (hiff.mpr h)
    simp [hc]; exact this

theorem sumBytes_perm {b c : List Byte} (h : b.Perm c) : sumBytes b = sumBytes c := by
  induction h with
  | nil => rfl
  | cons x _ ih => simp [ih]
  | swap x y l => simp; omega
  | trans _ _ h1 h2 => rw [h1, h2]

theorem accAdd_toNat (a b : Byte) : (accAdd a b).toNat = (a.toNat + b.toNat) % 256 := by
  rw [accAdd, BitVec.toNat_ofNat]; omega

end Sys2Proof.Machine
end

