-- ==== Sys2Proof/Laws/Codec.lean ====
section
/-! SUPPORT. For the builder, the parser and the frame rows, once, everything they can answer. -/
namespace Sys2Proof.Machine

@[simp] theorem Header.bytes_length (h : Header) : h.bytes.length = 9 := rfl

@[simp] theorem Header.afterDir_header (h : Header) : h.afterDir.header h.dir = h := rfl

@[simp] theorem Header.beforeKey_header (h : Header) : h.beforeKey.header h.cmdHi h.cmdLo = h := rfl

/-- Nine bytes or more are a header and a rest. -/
theorem exists_header_of_length {b : List Byte} (h : 9 ≤ b.length) : ∃ (hd : Header) (rest : List Byte), b = hd.bytes ++ rest := by
  match b, h with
  | b0 :: b1 :: b2 :: b3 :: b4 :: b5 :: b6 :: b7 :: b8 :: rest, _ => exact ⟨⟨b0, b1, b2, b3, b4, b5, b6, b7, b8⟩, rest, rfl⟩

theorem parseFrame_header (h : Header) (rest : List Byte) : parseFrame (h.bytes ++ rest) = parseWithHeader h (h.bytes ++ rest) := rfl

theorem parseFrame_short {b : List Byte} (h : b.length < 9) : parseFrame b = .malformed .headerShort := by
  unfold parseFrame
  split
  · simp only [List.length_cons] at h; omega
  · rfl

/-- The parser once the header is there, by the two length tests. -/
theorem parseWithHeader_cases (h : Header) (b : List Byte) :
    ((headerLength h).toNat < 5 ∧ parseWithHeader h b = .malformed .lengthUnderflow) ∨
    (5 ≤ (headerLength h).toNat ∧ b.length < 5 + (headerLength h).toNat ∧ parseWithHeader h b = .malformed .short) ∨
    (5 ≤ (headerLength h).toNat ∧ 5 + (headerLength h).toNat ≤ b.length ∧
      ∃ chk, b[4 + (headerLength h).toNat]? = some chk ∧ parseWithHeader h b = .ok (packetOf h b chk)) := by
  unfold parseWithHeader
  by_cases h5 : (headerLength h).toNat < 5
  · exact .inl ⟨h5, if_pos h5⟩
  · by_cases hm : b.length < 5 + (headerLength h).toNat
    · exact .inr (.inl ⟨by omega, hm, by rw [if_neg h5, if_pos hm]⟩)
    · have hlt : 4 + (headerLength h).toNat < b.length := by omega
      refine .inr (.inr ⟨by omega, by omega, b[4 + (headerLength h).toNat], List.getElem?_eq_getElem hlt, ?_⟩)
      rw [if_neg h5, if_neg hm, List.getElem?_eq_getElem hlt]

/-- A successful parse: the header, the rest, the trailer, and the packet made of them. -/
theorem parseFrame_eq_ok {b : List Byte} {p : DecodedPacket} (hp : parseFrame b = .ok p) :
    ∃ (h : Header) (rest : List Byte) (chk : Byte), b = h.bytes ++ rest ∧ 5 ≤ (headerLength h).toNat ∧
      5 + (headerLength h).toNat ≤ b.length ∧ b[4 + (headerLength h).toNat]? = some chk ∧ p = packetOf h b chk := by
  by_cases h9 : b.length < 9
  · rw [parseFrame_short h9] at hp; cases hp
  · obtain ⟨h, rest, rfl⟩ := exists_header_of_length (Nat.le_of_not_lt h9)
    rw [parseFrame_header] at hp
    rcases parseWithHeader_cases h (h.bytes ++ rest) with ⟨-, he⟩ | ⟨-, -, he⟩ | ⟨h5, hl, chk, hc, he⟩ <;> rw [he] at hp <;> cases hp
    exact ⟨h, rest, chk, rfl, h5, hl, hc, rfl⟩

theorem parseWithHeader_ok {h : Header} {b : List Byte} (h5 : 5 ≤ (headerLength h).toNat)
    (hl : 5 + (headerLength h).toNat ≤ b.length) :
    ∃ chk, b[4 + (headerLength h).toNat]? = some chk ∧ parseWithHeader h b = .ok (packetOf h b chk) := by
  rcases parseWithHeader_cases h b with ⟨h1, -⟩ | ⟨-, h2, -⟩ | ⟨-, -, chk, hc, he⟩
  · omega
  · omega
  · exact ⟨chk, hc, he⟩

/-- The frame ENCODE builds, when it builds one. -/
theorem buildFrame_ok {key : Half} {p : List Byte} (h : p.length ≤ 246) :
    buildFrame key p = .ok ((encodeHeader key (p.length + 5)).bytes ++
      (p ++ [checksumOf ((encodeHeader key (p.length + 5)).bytes ++ p)])) := by
  unfold buildFrame
  rw [if_neg (by simp [Config.hdrLen, Config.maxFrame]; omega)]
  simp [frameBytes, Config.lenBias]

theorem inParamRange_iff (b : Byte) : inParamRange b = true ↔ 0x61 ≤ b.toNat ∧ b.toNat ≤ 0xAB := by
  rw [inParamRange, decide_eq_true_iff]; rfl

theorem mem_rowsOf (r : FrameRow) (h : Header) : r ∈ rowsOf h ↔ rowApplies r h = true := by
  unfold rowsOf
  rw [List.mem_filter]
  cases r <;> simp [frameRows]

/-- Each row's mask and match, as a test of the direction byte or of the two key bytes. -/
theorem rowApplies_iff (r : FrameRow) (h : Header) : rowApplies r h = true ↔
    match r with
    | .dirH2d => h.dir = 0xAA#8
    | .dirD2h => h.dir = 0xAB#8
    | .keyResponse => h.cmdHi = 0xFF#8 ∧ h.cmdLo = 0xFF#8
    | .keyParamSet => h.cmdHi = 0x00#8 ∧ inParamRange h.cmdLo = true
    | .keyParamRead => h.cmdHi = 0x80#8 ∧ inParamRange h.cmdLo = true
    | .keySetPattern => h.cmdHi = 0x00#8 ∧ h.cmdLo = 0x62#8
    | .keyReadPattern => h.cmdHi = 0x80#8 ∧ h.cmdLo = 0x62#8
    | .frame => True := by
  have hff (b : Byte) : b &&& 0xFF#8 = b := BitVec.and_allOnes
  cases r <;> simp [rowApplies, rowPattern, maskedEq, Header.bytes, hff]

end Sys2Proof.Machine
end

