-- ==== Sys2Proof/Laws/Memory.lean ====
section
/-! SUPPORT. The laws of the receive buffer: a read after a write, what a write leaves alone, and that every write keeps
the canonical form. -/
namespace Sys2Proof.Machine

theorem Memory.load_store_same (m : Memory) (a : Nat) (b : Byte) : (m.store a b).load a = some b := by
  induction m with
  | nil => simp [Memory.store, Memory.load]
  | cons c m ih =>
    obtain ⟨x, v⟩ := c
    simp only [Memory.store]
    split
    · simp [Memory.load]
    · split
      · simp [Memory.load]
      · simp [Memory.load, *]

theorem Memory.load_store_other (m : Memory) {a a' : Nat} (b : Byte) (h : a' ≠ a) :
    (m.store a b).load a' = m.load a' := by
  induction m with
  | nil => simp [Memory.store, Memory.load, h]
  | cons c m ih =>
    obtain ⟨x, v⟩ := c
    simp only [Memory.store]
    split
    · simp [Memory.load, h]
    · split
      · next hx => subst hx; simp [Memory.load, h]
      · simp [Memory.load, ih]

theorem Memory.mem_store {m : Memory} {a : Nat} {b : Byte} {c : Host.Cell} (h : c ∈ m.store a b) : c = (a, b) ∨ c ∈ m := by
  induction m with
  | nil => simpa [Memory.store] using h
  | cons d m ih =>
    obtain ⟨x, v⟩ := d
    simp only [Memory.store] at h
    split at h
    · simpa using h
    · split at h
      · rcases List.mem_cons.mp h with h | h
        · exact .inl h
        · exact .inr (List.mem_cons_of_mem _ h)
      · rcases List.mem_cons.mp h with h | h
        · exact .inr (by simp [h])
        · exact (ih h).imp id (List.mem_cons_of_mem _)

theorem Memory.store_wf {m : Memory} {a : Nat} (b : Byte) (h : m.wf) (ha : a < Config.maxFrame) : (m.store a b).wf := by
  refine ⟨?_, fun c hc => ?_⟩
  · have hp := h.1
    clear h
    induction m with
    | nil => simp [Memory.store]
    | cons d m ih =>
      obtain ⟨x, v⟩ := d
      rw [List.pairwise_cons] at hp
      simp only [Memory.store]
      split
      · next hlt =>
        refine List.pairwise_cons.mpr ⟨fun c hc => ?_, List.pairwise_cons.mpr hp⟩
        rcases List.mem_cons.mp hc with rfl | hc
        · exact hlt
        · exact Nat.lt_trans hlt (hp.1 c hc)
      · split
        · next hx => subst hx; exact List.pairwise_cons.mpr hp
        · refine List.pairwise_cons.mpr ⟨fun c hc => ?_, ih hp.2⟩
          rcases Memory.mem_store hc with rfl | hc
          · show x < a; omega
          · exact hp.1 c hc
  · rcases Memory.mem_store hc with rfl | hc
    · exact ha
    · exact h.2 c hc

theorem Memory.storeList_wf {m : Memory} {a : Nat} (v : List Byte) (h : m.wf) (ha : a + v.length ≤ Config.maxFrame) :
    (m.storeList a v).wf := by
  induction v generalizing m a with
  | nil => exact h
  | cons b bs ih =>
    simp only [List.length_cons] at ha
    exact ih (Memory.store_wf b h (by omega)) (by omega)

/-- What a list write leaves alone: every address outside the bytes stored. -/
theorem Memory.load_storeList_outside (m : Memory) {a a' : Nat} (v : List Byte) (h : a' < a ∨ a + v.length ≤ a') :
    (m.storeList a v).load a' = m.load a' := by
  induction v generalizing m a with
  | nil => rfl
  | cons b bs ih =>
    simp only [List.length_cons] at h
    rw [Memory.storeList, ih _ (by omega), Memory.load_store_other _ _ (by omega)]

/-- What a list write stores: byte `i` of the list at `a + i`. -/
theorem Memory.load_storeList_inside (m : Memory) (a : Nat) (v : List Byte) (i : Nat) (h : i < v.length) :
    (m.storeList a v).load (a + i) = some v[i] := by
  induction v generalizing m a i with
  | nil => simp at h
  | cons b bs ih =>
    cases i with
    | zero => rw [Memory.storeList, Memory.load_storeList_outside _ _ (by omega)]; simp [Memory.load_store_same]
    | succ i =>
      simp only [List.length_cons] at h
      have := ih (m.store a b) (a + 1) i (by omega)
      simpa [Memory.storeList, Nat.add_assoc, Nat.add_comm 1 i] using this

/-- A list read succeeds exactly when every byte of it holds a value, and then gives those bytes. -/
theorem Memory.loadList_eq_some_iff (m : Memory) (a n : Nat) (v : List Byte) :
    m.loadList a n = some v ↔ v.length = n ∧ ∀ i, (h : i < v.length) → m.load (a + i) = some v[i] := by
  induction n generalizing a v with
  | zero =>
    simp only [Memory.loadList, Option.some.injEq]
    constructor
    · rintro rfl; simp
    · rintro ⟨h, -⟩; exact (List.length_eq_zero_iff.mp h).symm
  | succ n ih =>
    simp only [Memory.loadList]
    constructor
    · intro h
      split at h
      · next b bs hb hbs =>
        cases h
        obtain ⟨hl, hv⟩ := (ih _ _).mp hbs
        refine ⟨by simp [hl], fun i hi => ?_⟩
        cases i with
        | zero => simpa using hb
        | succ i => simpa [Nat.add_assoc, Nat.add_comm 1 i] using hv i (by simpa using hi)
      · cases h
    · rintro ⟨hl, hv⟩
      cases v with
      | nil => simp at hl
      | cons b bs =>
        have hb : m.load a = some b := hv 0 (Nat.succ_pos _)
        have hbs : m.loadList (a + 1) n = some bs := by
          refine (ih _ _).mpr ⟨by simpa using hl, fun i hi => ?_⟩
          rw [Nat.add_assoc, Nat.add_comm 1 i]
          exact hv (i + 1) (Nat.succ_lt_succ hi)
        simp [hb, hbs]

theorem Memory.loadList_isSome (m : Memory) (a n : Nat) (h : ∀ i, i < n → (m.load (a + i)).isSome) :
    (m.loadList a n).isSome := by
  induction n generalizing a with
  | zero => rfl
  | succ n ih =>
    obtain ⟨b, hb⟩ := Option.isSome_iff_exists.mp (by simpa using h 0 (by omega))
    obtain ⟨bs, hbs⟩ := Option.isSome_iff_exists.mp
      (ih (a + 1) fun i hi => by simpa [Nat.add_assoc, Nat.add_comm 1 i] using h (i + 1) (by omega))
    simp [Memory.loadList, hb, hbs]

theorem Memory.storeList_append (m : Memory) (a : Nat) (x y : List Byte) :
    m.storeList a (x ++ y) = (m.storeList a x).storeList (a + x.length) y := by
  induction x generalizing m a with
  | nil => rfl
  | cons b x ih => simp [Memory.storeList, ih, Nat.add_assoc, Nat.add_comm 1]

/-- A list read depends on the bytes it covers alone. -/
theorem Memory.loadList_congr {m m' : Memory} {a n : Nat} (h : ∀ i, i < n → m.load (a + i) = m'.load (a + i)) :
    m.loadList a n = m'.loadList a n := by
  induction n generalizing a with
  | zero => rfl
  | succ n ih =>
    have h0 := h 0 (by omega)
    have := ih (a := a + 1) fun i hi => by simpa [Nat.add_assoc, Nat.add_comm 1 i] using h (i + 1) (by omega)
    simp only [Nat.add_zero] at h0
    simp only [Memory.loadList, h0, this]

end Sys2Proof.Machine
end

