-- ==== Sys2Proof/Laws/State.lean ====
section
/-! SUPPORT. One lemma per field per named update of State, all true by unfolding the update once. -/
namespace Sys2Proof.Machine

@[simp] theorem State.toReset_state (s : State) : s.toReset.state = .idle := rfl
@[simp] theorem State.toReset_rxbuf (s : State) : s.toReset.rxbuf = s.rxbuf := rfl
@[simp] theorem State.toReset_cnt (s : State) : s.toReset.cnt = 0 := rfl
@[simp] theorem State.toReset_timer (s : State) : s.toReset.timer = 0 := rfl
@[simp] theorem State.toReset_acc (s : State) : s.toReset.acc = 0#8 := rfl
@[simp] theorem State.toReset_reply (s : State) : s.toReset.reply = s.reply := rfl
@[simp] theorem State.toReset_inbox (s : State) : s.toReset.inbox = s.inbox := rfl

@[simp] theorem State.beginRun_state (s : State) : s.beginRun.state = .accumulating := rfl
@[simp] theorem State.beginRun_rxbuf (s : State) : s.beginRun.rxbuf = s.rxbuf := rfl
@[simp] theorem State.beginRun_cnt (s : State) : s.beginRun.cnt = 0 := rfl
@[simp] theorem State.beginRun_timer (s : State) : s.beginRun.timer = 0 := rfl
@[simp] theorem State.beginRun_acc (s : State) : s.beginRun.acc = s.acc := rfl
@[simp] theorem State.beginRun_reply (s : State) : s.beginRun.reply = s.reply := rfl
@[simp] theorem State.beginRun_inbox (s : State) : s.beginRun.inbox = s.inbox := rfl

@[simp] theorem State.endRun_state (s : State) (into : RxState) : (s.endRun into).state = into := rfl
@[simp] theorem State.endRun_rxbuf (s : State) (into : RxState) : (s.endRun into).rxbuf = s.rxbuf := rfl
@[simp] theorem State.endRun_cnt (s : State) (into : RxState) : (s.endRun into).cnt = 0 := rfl
@[simp] theorem State.endRun_timer (s : State) (into : RxState) : (s.endRun into).timer = s.timer := rfl
@[simp] theorem State.endRun_acc (s : State) (into : RxState) : (s.endRun into).acc = s.acc := rfl
@[simp] theorem State.endRun_reply (s : State) (into : RxState) : (s.endRun into).reply = s.reply := rfl
@[simp] theorem State.endRun_inbox (s : State) (into : RxState) : (s.endRun into).inbox = s.inbox := rfl

@[simp] theorem State.completeRun_state (s : State) (total : Nat) : (s.completeRun total).state = .complete := rfl
@[simp] theorem State.completeRun_rxbuf (s : State) (total : Nat) : (s.completeRun total).rxbuf = s.rxbuf := rfl
@[simp] theorem State.completeRun_cnt (s : State) (total : Nat) : (s.completeRun total).cnt = total := rfl
@[simp] theorem State.completeRun_timer (s : State) (total : Nat) : (s.completeRun total).timer = s.timer := rfl
@[simp] theorem State.completeRun_acc (s : State) (total : Nat) : (s.completeRun total).acc = s.acc := rfl
@[simp] theorem State.completeRun_reply (s : State) (total : Nat) : (s.completeRun total).reply = s.reply := rfl
@[simp] theorem State.completeRun_inbox (s : State) (total : Nat) : (s.completeRun total).inbox = s.inbox := rfl

@[simp] theorem State.setCnt_state (s : State) (n : Nat) : (s.setCnt n).state = s.state := rfl
@[simp] theorem State.setCnt_rxbuf (s : State) (n : Nat) : (s.setCnt n).rxbuf = s.rxbuf := rfl
@[simp] theorem State.setCnt_cnt (s : State) (n : Nat) : (s.setCnt n).cnt = n := rfl
@[simp] theorem State.setCnt_timer (s : State) (n : Nat) : (s.setCnt n).timer = s.timer := rfl
@[simp] theorem State.setCnt_acc (s : State) (n : Nat) : (s.setCnt n).acc = s.acc := rfl
@[simp] theorem State.setCnt_reply (s : State) (n : Nat) : (s.setCnt n).reply = s.reply := rfl
@[simp] theorem State.setCnt_inbox (s : State) (n : Nat) : (s.setCnt n).inbox = s.inbox := rfl

@[simp] theorem State.setTimer_state (s : State) (n : Nat) : (s.setTimer n).state = s.state := rfl
@[simp] theorem State.setTimer_rxbuf (s : State) (n : Nat) : (s.setTimer n).rxbuf = s.rxbuf := rfl
@[simp] theorem State.setTimer_cnt (s : State) (n : Nat) : (s.setTimer n).cnt = s.cnt := rfl
@[simp] theorem State.setTimer_timer (s : State) (n : Nat) : (s.setTimer n).timer = n := rfl
@[simp] theorem State.setTimer_acc (s : State) (n : Nat) : (s.setTimer n).acc = s.acc := rfl
@[simp] theorem State.setTimer_reply (s : State) (n : Nat) : (s.setTimer n).reply = s.reply := rfl
@[simp] theorem State.setTimer_inbox (s : State) (n : Nat) : (s.setTimer n).inbox = s.inbox := rfl

@[simp] theorem State.setAcc_state (s : State) (b : Byte) : (s.setAcc b).state = s.state := rfl
@[simp] theorem State.setAcc_rxbuf (s : State) (b : Byte) : (s.setAcc b).rxbuf = s.rxbuf := rfl
@[simp] theorem State.setAcc_cnt (s : State) (b : Byte) : (s.setAcc b).cnt = s.cnt := rfl
@[simp] theorem State.setAcc_timer (s : State) (b : Byte) : (s.setAcc b).timer = s.timer := rfl
@[simp] theorem State.setAcc_acc (s : State) (b : Byte) : (s.setAcc b).acc = b := rfl
@[simp] theorem State.setAcc_reply (s : State) (b : Byte) : (s.setAcc b).reply = s.reply := rfl
@[simp] theorem State.setAcc_inbox (s : State) (b : Byte) : (s.setAcc b).inbox = s.inbox := rfl

@[simp] theorem State.answer_state (s : State) (r : Reply) : (s.answer r).state = s.state := rfl
@[simp] theorem State.answer_rxbuf (s : State) (r : Reply) : (s.answer r).rxbuf = s.rxbuf := rfl
@[simp] theorem State.answer_cnt (s : State) (r : Reply) : (s.answer r).cnt = s.cnt := rfl
@[simp] theorem State.answer_timer (s : State) (r : Reply) : (s.answer r).timer = s.timer := rfl
@[simp] theorem State.answer_acc (s : State) (r : Reply) : (s.answer r).acc = s.acc := rfl
@[simp] theorem State.answer_reply (s : State) (r : Reply) : (s.answer r).reply = some r := rfl
@[simp] theorem State.answer_inbox (s : State) (r : Reply) : (s.answer r).inbox = s.inbox := rfl

@[simp] theorem State.clearReply_state (s : State) : s.clearReply.state = s.state := rfl
@[simp] theorem State.clearReply_rxbuf (s : State) : s.clearReply.rxbuf = s.rxbuf := rfl
@[simp] theorem State.clearReply_cnt (s : State) : s.clearReply.cnt = s.cnt := rfl
@[simp] theorem State.clearReply_timer (s : State) : s.clearReply.timer = s.timer := rfl
@[simp] theorem State.clearReply_acc (s : State) : s.clearReply.acc = s.acc := rfl
@[simp] theorem State.clearReply_reply (s : State) : s.clearReply.reply = none := rfl
@[simp] theorem State.clearReply_inbox (s : State) : s.clearReply.inbox = s.inbox := rfl

@[simp] theorem State.present_state (s : State) (r : Request) : (s.present r).state = s.state := rfl
@[simp] theorem State.present_rxbuf (s : State) (r : Request) : (s.present r).rxbuf = s.rxbuf := rfl
@[simp] theorem State.present_cnt (s : State) (r : Request) : (s.present r).cnt = s.cnt := rfl
@[simp] theorem State.present_timer (s : State) (r : Request) : (s.present r).timer = s.timer := rfl
@[simp] theorem State.present_acc (s : State) (r : Request) : (s.present r).acc = s.acc := rfl
@[simp] theorem State.present_reply (s : State) (r : Request) : (s.present r).reply = s.reply := rfl
@[simp] theorem State.present_inbox (s : State) (r : Request) : (s.present r).inbox = [r] :: s.inbox := rfl

@[simp] theorem State.reset_state : State.reset.state = .idle := rfl
@[simp] theorem State.reset_rxbuf : State.reset.rxbuf = [] := rfl
@[simp] theorem State.reset_cnt : State.reset.cnt = 0 := rfl
@[simp] theorem State.reset_timer : State.reset.timer = 0 := rfl
@[simp] theorem State.reset_acc : State.reset.acc = 0#8 := rfl
@[simp] theorem State.reset_reply : State.reset.reply = none := rfl
@[simp] theorem State.reset_inbox : State.reset.inbox = [] := rfl

end Sys2Proof.Machine
end

