-- ==== Sys2Proof/Laws/Ops.lean ====
section
/-! SUPPORT. For each shared operation, once, everything it can do. -/
namespace Sys2Proof.Machine

theorem State.memWrite_eq_some {s t : State} {a : Nat} {v : List Byte} (h : s.memWrite a v = some t) :
    a + v.length ≤ Config.maxFrame ∧ t = { s with rxbuf := s.rxbuf.storeList a v } := by
  unfold State.memWrite at h
  split at h
  · exact ⟨‹_›, (Option.some.inj h).symm⟩
  · cases h

theorem State.memRead_eq_some_iff {s : State} {a n : Nat} {v : List Byte} :
    s.memRead a n = some v ↔ a + n ≤ s.cnt ∧ s.rxbuf.loadList a n = some v := by
  unfold State.memRead
  split <;> simp_all

theorem State.readByte_of_lt {s : State} {i : Nat} (h : i < s.cnt) : s.readByte i = s.rxbuf.load i := if_pos h

theorem State.readByte_of_ge {s : State} {i : Nat} (h : s.cnt ≤ i) : s.readByte i = none := if_neg (by omega)

theorem State.bufferTotal_eq_some {s : State} {total : Nat} (h : s.bufferTotal = some total) :
    ∃ lo hi, s.readByte 3 = some lo ∧ s.readByte 4 = some hi ∧ total = Config.preLen + (u16le lo hi).toNat := by
  unfold State.bufferTotal State.bufferLength at h
  split at h
  · next l hl =>
    split at hl
    · next lo hi h3 h4 => cases hl; exact ⟨lo, hi, h3, h4, (Option.some.inj h).symm⟩
    · cases hl
  · cases h

theorem State.bufferTotal_of_bytes {s : State} {lo hi : Byte} (h3 : s.readByte 3 = some lo) (h4 : s.readByte 4 = some hi) :
    s.bufferTotal = some (Config.preLen + (u16le lo hi).toNat) := by
  simp [State.bufferTotal, State.bufferLength, h3, h4]

/-- `L` and `T` depend on nothing but the two bytes of the length field. -/
theorem State.bufferTotal_congr {s t : State} (h3 : s.readByte 3 = t.readByte 3) (h4 : s.readByte 4 = t.readByte 4) :
    s.bufferTotal = t.bufferTotal := by
  unfold State.bufferTotal State.bufferLength
  rw [h3, h4]

/-- The length test: it waits, it completes, or (with an invalid buffer) a byte holds no value. -/
theorem lengthTest_cases (s : State) :
    (s.cnt < Config.hdrLen ∧ lengthTest s = .next s) ∨
    (Config.hdrLen ≤ s.cnt ∧ ∃ total, s.bufferTotal = some total ∧
      ((s.cnt < total ∧ lengthTest s = .next s) ∨ (total ≤ s.cnt ∧ lengthTest s = .next (s.completeRun total)))) ∨
    (Config.hdrLen ≤ s.cnt ∧ s.bufferTotal = none ∧ lengthTest s = .fault .noValue) := by
  unfold lengthTest
  by_cases h9 : Config.hdrLen ≤ s.cnt
  · rw [if_pos h9]
    cases ht : s.bufferTotal with
    | none => exact .inr (.inr ⟨h9, rfl, rfl⟩)
    | some total =>
      refine .inr (.inl ⟨h9, total, rfl, ?_⟩)
      by_cases hc : total ≤ s.cnt
      · exact .inr ⟨hc, if_pos hc⟩
      · exact .inl ⟨by omega, if_neg hc⟩
  · exact .inl ⟨by omega, if_neg h9⟩

/-- The state a beat leaves before the length test. -/
def State.appended (s : State) (bytes : List Byte) : State :=
  { s with rxbuf := s.rxbuf.storeList s.cnt bytes, cnt := s.cnt + bytes.length }

@[simp] theorem State.appended_state (s : State) (b : List Byte) : (s.appended b).state = s.state := rfl
@[simp] theorem State.appended_rxbuf (s : State) (b : List Byte) : (s.appended b).rxbuf = s.rxbuf.storeList s.cnt b := rfl
@[simp] theorem State.appended_cnt (s : State) (b : List Byte) : (s.appended b).cnt = s.cnt + b.length := rfl
@[simp] theorem State.appended_timer (s : State) (b : List Byte) : (s.appended b).timer = s.timer := rfl
@[simp] theorem State.appended_acc (s : State) (b : List Byte) : (s.appended b).acc = s.acc := rfl
@[simp] theorem State.appended_reply (s : State) (b : List Byte) : (s.appended b).reply = s.reply := rfl
@[simp] theorem State.appended_inbox (s : State) (b : List Byte) : (s.appended b).inbox = s.inbox := rfl

/-- A beat that fits is appended, then tested. -/
theorem takeBeat_eq (s : State) (bytes : List Byte) :
    takeBeat bytes s =
      if s.cnt + bytes.length ≤ Config.maxFrame then lengthTest (s.appended bytes) else .fault .bufferOverrun := by
  unfold takeBeat State.memWrite
  split <;> rename_i h <;> split at h <;> simp_all [State.appended, State.setCnt]
  subst h; rfl

theorem rxDataOp_outside {beatMax : Nat} {s : State} (bytes : List Byte) (h : s.state ≠ .accumulating) :
    rxDataOp beatMax bytes s = .next s := by
  unfold rxDataOp
  split <;> simp_all

theorem rxDataOp_inside {beatMax : Nat} {s : State} (bytes : List Byte) (h : s.state = .accumulating) :
    rxDataOp beatMax bytes s = if bytes.length ≤ s.beatBound beatMax then takeBeat bytes s else .refused .beatTooLarge := by
  unfold rxDataOp
  rw [h]

/-- A beat within its bound, in a state with `CNT` in range, is appended and tested. -/
theorem rxDataOp_accepted {beatMax : Nat} {s : State} {bytes : List Byte} (h : s.state = .accumulating)
    (hc : s.cnt ≤ Config.maxFrame) (hb : bytes.length ≤ s.beatBound beatMax) :
    rxDataOp beatMax bytes s = lengthTest (s.appended bytes) := by
  unfold State.beatBound State.offeredSpace at hb
  rw [rxDataOp_inside bytes h, if_pos (by unfold State.beatBound State.offeredSpace; exact hb), takeBeat_eq,
    if_pos (by omega)]

/-- Everything RX_DATA can leave: the same state, the appended one, or the completed one. -/
theorem rxDataOp_next {beatMax : Nat} {bytes : List Byte} {s t : State} (h : rxDataOp beatMax bytes s = .next t) :
    (s.state ≠ .accumulating ∧ t = s) ∨
    (s.state = .accumulating ∧ bytes.length ≤ s.beatBound beatMax ∧ s.cnt + bytes.length ≤ Config.maxFrame ∧
      ((t = s.appended bytes ∧ (s.cnt + bytes.length < Config.hdrLen ∨
          ∃ total, t.bufferTotal = some total ∧ s.cnt + bytes.length < total)) ∨
       ∃ total, Config.hdrLen ≤ s.cnt + bytes.length ∧ (s.appended bytes).bufferTotal = some total ∧
          total ≤ s.cnt + bytes.length ∧ t = (s.appended bytes).completeRun total)) := by
  by_cases hs : s.state = .accumulating
  · refine .inr ⟨hs, ?_⟩
    rw [rxDataOp_inside bytes hs] at h
    split at h
    · next hb =>
      rw [takeBeat_eq] at h
      split at h
      · next hc =>
        refine ⟨hb, hc, ?_⟩
        rcases lengthTest_cases (s.appended bytes) with ⟨h9, he⟩ | ⟨h9, total, ht, ⟨hlt, he⟩ | ⟨hle, he⟩⟩ | ⟨-, -, he⟩ <;>
          rw [he] at h <;> cases h
        · exact .inl ⟨rfl, .inl h9⟩
        · exact .inl ⟨rfl, .inr ⟨total, ht, hlt⟩⟩
        · exact .inr ⟨total, h9, ht, hle, rfl⟩
      · cases h
    · cases h
  · rw [rxDataOp_outside bytes hs] at h
    cases h
    exact .inl ⟨hs, rfl⟩

theorem tickOp_outside {d : Nat} {s : State} (h : s.state ≠ .accumulating) : tickOp d s = s := by
  unfold tickOp
  split <;> simp_all

theorem tickOp_inside {d : Nat} {s : State} (h : s.state = .accumulating) :
    tickOp d s = if s.timer + 1 = d then (s.setTimer (s.timer + 1)).endRun .timedOut else s.setTimer (s.timer + 1) := by
  unfold tickOp
  rw [h]

theorem execStart_inside {s : State} (h : s.state = .accumulating) : execStart s = .next s := by
  unfold execStart
  rw [h]

theorem execStart_outside {s : State} (h : s.state ≠ .accumulating) : execStart s = .next s.beginRun := by
  unfold execStart
  split <;> simp_all

theorem execRxError_inside {s : State} (h : s.state = .accumulating) : execRxError s = .next (s.endRun .transportError) := by
  unfold execRxError
  rw [h]

theorem execRxError_outside {s : State} (h : s.state ≠ .accumulating) : execRxError s = .next s := by
  unfold execRxError
  split <;> simp_all

theorem showFrame_eq (h : Header) (rest : List Byte) (s : State) :
    showFrame h rest s = .next (s.answer (.classified (rowsOf h) (parseFrame (h.bytes ++ rest)))) := rfl

/-- Everything an instruction can do that is not a fault or a refusal, by constructor. -/
theorem exec_next_cases {i : Instr} {s t : State} (h : exec i s = .next t) :
    (i = .reset ∧ t = s.toReset) ∨
    (i = .start ∧ ((s.state = .accumulating ∧ t = s) ∨ (s.state ≠ .accumulating ∧ t = s.beginRun))) ∨
    (∃ bytes, i = .rxData bytes ∧ rxDataOp Config.rxBeatMax bytes s = .next t) ∨
    (i = .rxWouldBlock ∧ t = s) ∨
    (i = .rxError ∧ ((s.state = .accumulating ∧ t = s.endRun .transportError) ∨ (s.state ≠ .accumulating ∧ t = s))) ∨
    (i = .tick ∧ t = tickOp Config.deadlineTicks s) ∨
    (i = .csClear ∧ t = s.setAcc 0#8) ∨
    (∃ b, i = .csAdd b ∧ t = s.setAcc (accAdd s.acc b)) ∨
    (keepsRun i = true ∧ keepsSum i = true ∧ addedBy i = [] ∧ i ≠ .tick ∧ ∃ r, t = s.answer r) := by
  cases i with
  | reset => cases h; exact .inl ⟨rfl, rfl⟩
  | start =>
    by_cases hs : s.state = .accumulating
    · rw [exec, execStart_inside hs] at h; cases h; exact .inr (.inl ⟨rfl, .inl ⟨hs, rfl⟩⟩)
    · rw [exec, execStart_outside hs] at h; cases h; exact .inr (.inl ⟨rfl, .inr ⟨hs, rfl⟩⟩)
  | rxData bytes => exact .inr (.inr (.inl ⟨bytes, rfl, h⟩))
  | rxWouldBlock => cases h; simp
  | rxError =>
    by_cases hs : s.state = .accumulating
    · rw [exec, execRxError_inside hs] at h; cases h; simp [hs]
    · rw [exec, execRxError_outside hs] at h; cases h; simp [hs]
  | tick => cases h; simp
  | csClear => cases h; simp
  | csAdd b => cases h; simp
  | verify bytes =>
    rw [exec, execVerify] at h
    split at h
    · cases h; simp [keepsRun, keepsSum, addedBy]
    · cases h
  | checksum _ | encode _ _ | decode _ | dirH2d _ _ | dirD2h _ _ | keyResponse _ _ | keyParamSet _ _ _ | keyParamRead _ _ _
  | keySetPattern _ _ | keyReadPattern _ _ | frame _ _ =>
    cases h
    exact .inr (.inr (.inr (.inr (.inr (.inr (.inr (.inr ⟨rfl, rfl, rfl, nofun, _, rfl⟩)))))))

/-- Every byte below `CNT` still holds a value after an append. -/
theorem appended_valid {s : State} (h : ∀ a, a < s.cnt → (s.rxbuf.load a).isSome) (d : List Byte) :
    ∀ a, a < (s.appended d).cnt → ((s.appended d).rxbuf.load a).isSome := by
  intro a ha
  simp only [State.appended_cnt, State.appended_rxbuf] at *
  by_cases hlt : a < s.cnt
  · rw [Memory.load_storeList_outside _ _ (.inl hlt)]; exact h a hlt
  · obtain ⟨i, rfl⟩ := Nat.exists_eq_add_of_le (Nat.le_of_not_lt hlt)
    rw [Memory.load_storeList_inside _ _ _ i (by omega)]; rfl

theorem State.appended_append (s : State) (x y : List Byte) : s.appended (x ++ y) = (s.appended x).appended y := by
  simp [State.appended, Memory.storeList_append, Nat.add_assoc]

/-- The length test where every byte below `CNT` holds a value: it never faults. -/
theorem lengthTest_valid {s : State} (h : ∀ a, a < s.cnt → (s.rxbuf.load a).isSome) :
    (s.cnt < 9 ∧ lengthTest s = .next s) ∨
    (9 ≤ s.cnt ∧ ∃ lo hi, s.rxbuf.load 3 = some lo ∧ s.rxbuf.load 4 = some hi ∧
      s.bufferTotal = some (5 + (u16le lo hi).toNat) ∧
      ((s.cnt < 5 + (u16le lo hi).toNat ∧ lengthTest s = .next s) ∨
       (5 + (u16le lo hi).toNat ≤ s.cnt ∧ lengthTest s = .next (s.completeRun (5 + (u16le lo hi).toNat))))) := by
  by_cases h9 : s.cnt < 9
  · exact .inl ⟨h9, if_neg (Nat.not_le_of_lt h9)⟩
  · obtain ⟨lo, h3⟩ := Option.isSome_iff_exists.mp (h 3 (by omega))
    obtain ⟨hi, h4⟩ := Option.isSome_iff_exists.mp (h 4 (by omega))
    have ht : s.bufferTotal = some (5 + (u16le lo hi).toNat) :=
      State.bufferTotal_of_bytes (by rw [State.readByte_of_lt (by omega)]; exact h3)
        (by rw [State.readByte_of_lt (by omega)]; exact h4)
    refine .inr ⟨by omega, lo, hi, h3, h4, ht, ?_⟩
    unfold lengthTest
    rw [if_pos (Nat.le_of_not_lt h9), ht]
    by_cases hc : 5 + (u16le lo hi).toNat ≤ s.cnt
    · exact .inr ⟨hc, if_pos hc⟩
    · exact .inl ⟨by omega, if_neg hc⟩

theorem received_of_loadList {s : State} {f : List Byte} (h : s.rxbuf.loadList 0 s.cnt = some f) : s.received = some f := by
  unfold State.received
  rw [State.memRead_eq_some_iff]
  exact ⟨by simp, h⟩

theorem result_of_received {s : State} {f : List Byte} (hs : s.state = .complete) (h : s.received = some f) :
    s.result = some (parseFrame f) := by
  unfold State.result
  rw [hs]
  simp [h]

/-- A run of a machine keeps what every step of it keeps. -/
theorem run_keeps (M : Host.Core) (I : M.State → Prop) (hI : ∀ s t, I s → M.step s = .next t → I t) (k : Nat) :
    ∀ s t, I s → M.run k s = .next t → I t := by
  induction k with
  | zero => intro s t h he; cases he; exact h
  | succ k ih =>
    intro s t h he
    unfold Host.Core.run at he
    split at he
    · next s' hs => exact ih _ _ (hI _ _ h hs) he
    · cases he
    · cases he

/-! ## Taking a request: an empty inbox, an empty first cycle, or the head of the first cycle's order -/

/-- The order of transport events and ticks, without the special cases of an empty side. -/
theorem orderTimed_eq (o : Config.SameCycleOrder) (rx t : Cycle) :
    orderTimed o rx t = if o = .rxFirst then rx ++ t else t ++ rx := by
  cases rx <;> cases t <;> cases o <;> simp [orderTimed]

theorem fetchWith_nil (o : Config.SameCycleOrder) {s : State} (h : s.inbox = []) : fetchWith o s = .idle s := by
  simp [fetchWith, h]

theorem fetchWith_cons_nil (o : Config.SameCycleOrder) {s : State} {c : Cycle} {cs : List Cycle} (h : s.inbox = c :: cs)
    (hc : serialise o c = []) : fetchWith o s = .idle { s with inbox := cs } := by
  simp [fetchWith, h, hc]

theorem fetchWith_cons (o : Config.SameCycleOrder) {s : State} {c : Cycle} {cs : List Cycle} {r : Request} {rs : Cycle}
    (h : s.inbox = c :: cs) (hc : serialise o c = r :: rs) :
    fetchWith o s = .request r { s with inbox := if rs = [] then cs else rs :: cs } := by
  cases rs <;> simp [fetchWith, h, hc]

/-- A request presented alone is the one taken. -/
theorem fetchWith_present (o : Config.SameCycleOrder) (s : State) (r : Request) :
    fetchWith o (s.present r) = .request r s := by
  have h : serialise o [r] = [r] := by
    unfold serialise ofKind
    cases hk : Request.kind r <;> simp [hk, orderTimed]
  simp [fetchWith, State.present, h]

end Sys2Proof.Machine
end

