-- ==== Sys2Proof/Laws/PerInstr.lean ====
section
/-! SUPPORT. Statements made of every instruction, one lemma per constructor. `RowMatches`: the request that presents
an instruction carries its own row's `match` of spec/opcode_table.json under the row's mask (R70): the 4-bit code of an
operation, the masked header bytes of a frame row. -/
namespace Sys2Proof.Laws

open Sys2Proof.Machine in
/-- The row's fixed part: the operation code, or the frame row. -/
def rowOf : Instr → BitVec 4 ⊕ FrameRow
  | .reset => .inl 0x1
  | .start => .inl 0x2
  | .rxData _ => .inl 0x3
  | .rxWouldBlock => .inl 0x4
  | .rxError => .inl 0x5
  | .tick => .inl 0x6
  | .csClear => .inl 0x7
  | .csAdd _ => .inl 0x8
  | .checksum _ => .inl 0x9
  | .verify _ => .inl 0xA
  | .encode _ _ => .inl 0xB
  | .decode _ => .inl 0xC
  | .dirH2d _ _ => .inr .dirH2d
  | .dirD2h _ _ => .inr .dirD2h
  | .keyResponse _ _ => .inr .keyResponse
  | .keyParamSet _ _ _ => .inr .keyParamSet
  | .keyParamRead _ _ _ => .inr .keyParamRead
  | .keySetPattern _ _ => .inr .keySetPattern
  | .keyReadPattern _ _ => .inr .keyReadPattern
  | .frame _ _ => .inr .frame

/-- Whether a request carries a row's fixed part. -/
def carries : BitVec 4 ⊕ FrameRow → Request → Bool
  | .inl code, .op c _ => (c &&& 0xF#4) == code
  | .inr r, .frame bytes => Machine.maskedEq (bytes.take 9) (Machine.rowPattern r).mask (Machine.rowPattern r).value
  | .inl _, .frame _ => false
  | .inr _, .op _ _ => false

def RowMatches.Statement (i : Instr) : Prop := carries (rowOf i) (encode i) = true

theorem and_ff (b : Byte) : b &&& 0xFF#8 = b := BitVec.and_allOnes
theorem and_zero (b : Byte) : b &&& 0x00#8 = 0x00#8 := BitVec.and_zero

theorem RowMatches.reset : RowMatches.Statement .reset := rfl
theorem RowMatches.start : RowMatches.Statement .start := rfl
theorem RowMatches.rxData (d : List Byte) : RowMatches.Statement (.rxData d) := rfl
theorem RowMatches.rxWouldBlock : RowMatches.Statement .rxWouldBlock := rfl
theorem RowMatches.rxError : RowMatches.Statement .rxError := rfl
theorem RowMatches.tick : RowMatches.Statement .tick := rfl
theorem RowMatches.csClear : RowMatches.Statement .csClear := rfl
theorem RowMatches.csAdd (b : Byte) : RowMatches.Statement (.csAdd b) := rfl
theorem RowMatches.checksum (b : List Byte) : RowMatches.Statement (.checksum b) := rfl
theorem RowMatches.verify (b : List Byte) : RowMatches.Statement (.verify b) := rfl
theorem RowMatches.encode (k : Half) (p : List Byte) : RowMatches.Statement (.encode k p) := rfl
theorem RowMatches.decode (b : List Byte) : RowMatches.Statement (.decode b) := rfl

theorem RowMatches.dirH2d (h : AfterDir) (r : List Byte) : RowMatches.Statement (.dirH2d h r) := by
  simp [RowMatches.Statement, carries, rowOf, Sys2Proof.encode, Machine.rowPattern, Header.bytes, AfterDir.header, Machine.maskedEq, Config.dirH2d]

theorem RowMatches.dirD2h (h : AfterDir) (r : List Byte) : RowMatches.Statement (.dirD2h h r) := by
  simp [RowMatches.Statement, carries, rowOf, Sys2Proof.encode, Machine.rowPattern, Header.bytes, AfterDir.header, Machine.maskedEq, Config.dirD2h]

theorem RowMatches.keyResponse (h : BeforeKey) (r : List Byte) : RowMatches.Statement (.keyResponse h r) := by
  simp [RowMatches.Statement, carries, rowOf, Sys2Proof.encode, Machine.rowPattern, Header.bytes, BeforeKey.header, Machine.maskedEq]

theorem RowMatches.keyParamSet (h : BeforeKey) (lo : Byte) (r : List Byte) : RowMatches.Statement (.keyParamSet h lo r) := by
  simp [RowMatches.Statement, carries, rowOf, Sys2Proof.encode, Machine.rowPattern, Header.bytes, BeforeKey.header, Machine.maskedEq]

theorem RowMatches.keyParamRead (h : BeforeKey) (lo : Byte) (r : List Byte) : RowMatches.Statement (.keyParamRead h lo r) := by
  simp [RowMatches.Statement, carries, rowOf, Sys2Proof.encode, Machine.rowPattern, Header.bytes, BeforeKey.header, Machine.maskedEq]

theorem RowMatches.keySetPattern (h : BeforeKey) (r : List Byte) : RowMatches.Statement (.keySetPattern h r) := by
  simp [RowMatches.Statement, carries, rowOf, Sys2Proof.encode, Machine.rowPattern, Header.bytes, BeforeKey.header, Machine.maskedEq]

theorem RowMatches.keyReadPattern (h : BeforeKey) (r : List Byte) : RowMatches.Statement (.keyReadPattern h r) := by
  simp [RowMatches.Statement, carries, rowOf, Sys2Proof.encode, Machine.rowPattern, Header.bytes, BeforeKey.header, Machine.maskedEq]

theorem RowMatches.frame (h : Header) (r : List Byte) : RowMatches.Statement (.frame h r) := by
  simp [RowMatches.Statement, carries, rowOf, Sys2Proof.encode, Machine.rowPattern, Header.bytes, Machine.maskedEq]

end Sys2Proof.Laws
end

