-- ==== Sys2Proof/Laws/Software.lean ====
section
/-! SUPPORT. The Command Registry: for each lookup, once, everything it can answer; and the small lemmas of the keys. -/
namespace Sys2Proof.Machine

theorem literalOf_eq_some {key : Half} {c : Config.LiteralCommand} : literalOf key = some c ↔ literalKey c = key := by
  constructor
  · intro h
    simpa using List.find?_some h
  · rintro rfl
    cases hf : literalOf (literalKey c) with
    | none =>
      have := List.find?_eq_none.mp hf c (by cases c <;> simp [literalCommands])
      simp at this
    | some d =>
      have hd : literalKey d = literalKey c := by simpa using List.find?_some hf
      rw [Config.registry.literal_distinct d c hd]

theorem literalOf_eq_none {key : Half} : literalOf key = none ↔ ∀ c, literalKey c ≠ key := by
  rw [Option.eq_none_iff_forall_ne_some]
  exact forall_congr' fun c => not_congr literalOf_eq_some

/-- The parameter range as numbers: the base key, or the base key plus 0x8000 (R65). -/
theorem paramByte_eq_some (key : Half) (b : Byte) : paramByte key = some b ↔
    0x61 ≤ b.toNat ∧ b.toNat ≤ 0xAB ∧ (key.toNat = b.toNat ∨ key.toNat = 0x8000 + b.toNat) := by
  have e : (key &&& ~~~Config.keyReadBit).toNat = key.toNat % 32768 := by
    rw [show (~~~Config.keyReadBit) = BitVec.ofNat 16 32767 by decide, BitVec.toNat_and]
    simp only [BitVec.toNat_ofNat]
    exact Nat.and_two_pow_sub_one_eq_mod key.toNat 15
  have := key.isLt
  have := b.isLt
  unfold paramByte
  simp only [e, Config.paramLow, Config.paramHigh, BitVec.toNat_ofNat]
  split
  · rw [Option.some.injEq, ← BitVec.toNat_inj, lo8_toNat]
    constructor
    · intro h; refine ⟨?_, ?_, ?_⟩ <;> omega
    · rintro ⟨-, -, h | h⟩ <;> omega
  · simp only [reduceCtorEq, false_iff]
    omega

@[simp] theorem setKey_toNat (e : Config.ParamEntry) : e.setKey.toNat = e.base.toNat := by
  have := e.base.isLt
  simp [Config.ParamEntry.setKey]; omega

@[simp] theorem readKey_toNat (e : Config.ParamEntry) : e.readKey.toNat = 0x8000 + e.base.toNat := by
  have hd : e.base.toNat < 2 ^ 15 := Nat.lt_of_lt_of_le e.base.isLt (by decide)
  have := Nat.two_pow_add_eq_or_of_lt hd 1
  rw [Config.ParamEntry.readKey, BitVec.toNat_or, setKey_toNat, Config.keyReadBit]
  simpa using this.symm

@[simp] theorem variantOf_setKey (e : Config.ParamEntry) : variantOf e.setKey = .set := by
  have := e.base.isLt
  have h : isReadKey e.setKey = false := by
    rw [isReadKey, BitVec.getLsbD, setKey_toNat]
    exact Nat.testBit_lt_two_pow (by omega)
  simp [variantOf, h]

@[simp] theorem variantOf_readKey (e : Config.ParamEntry) : variantOf e.readKey = .read := by
  have h : isReadKey e.readKey = true := by
    rw [isReadKey, Config.ParamEntry.readKey, BitVec.getLsbD_or]
    simp [Config.keyReadBit]
  simp [variantOf, h]

/-- One parameter command per base byte, and per name (R135). -/
theorem param_eq_of_base {e f : Config.ParamEntry} (he : e ∈ Config.registry.params) (hf : f ∈ Config.registry.params)
    (h : e.base = f.base) : e = f := by
  by_contra hne
  have hs : Std.Symm (fun e f : Config.ParamEntry => e.name ≠ f.name ∧ e.base ≠ f.base) :=
    ⟨fun _ _ h => ⟨h.1.symm, h.2.symm⟩⟩
  exact (List.Pairwise.forall Config.registry.params_distinct he hf hne).2 h

theorem param_eq_of_name {e f : Config.ParamEntry} (he : e ∈ Config.registry.params) (hf : f ∈ Config.registry.params)
    (h : e.name = f.name) : e = f := by
  by_contra hne
  have hs : Std.Symm (fun e f : Config.ParamEntry => e.name ≠ f.name ∧ e.base ≠ f.base) :=
    ⟨fun _ _ h => ⟨h.1.symm, h.2.symm⟩⟩
  exact (List.Pairwise.forall Config.registry.params_distinct he hf hne).1 h

theorem paramOfByte_eq_some {b : Byte} {e : Config.ParamEntry} :
    paramOfByte b = some e ↔ e ∈ Config.registry.params ∧ e.base = b := by
  constructor
  · intro h
    exact ⟨List.mem_of_find?_eq_some h, by simpa using List.find?_some h⟩
  · rintro ⟨he, rfl⟩
    cases hf : paramOfByte e.base with
    | none => simpa using List.find?_eq_none.mp hf e he
    | some d => rw [param_eq_of_base (List.mem_of_find?_eq_some hf) he (by simpa using List.find?_some hf)]

theorem paramNamed_eq_some {name : String} {e : Config.ParamEntry} :
    paramNamed name = some e ↔ e ∈ Config.registry.params ∧ e.name = name := by
  constructor
  · intro h
    exact ⟨List.mem_of_find?_eq_some h, by simpa using List.find?_some h⟩
  · rintro ⟨he, rfl⟩
    cases hf : paramNamed e.name with
    | none => simpa using List.find?_eq_none.mp hf e he
    | some d => rw [param_eq_of_name (List.mem_of_find?_eq_some hf) he (by simpa using List.find?_some hf)]

/-- The keys of a parameter command are its two variants' and no other (R65, R137). -/
theorem paramOf_eq_some {key : Half} {e : Config.ParamEntry} :
    paramOf key = some e ↔ e ∈ Config.registry.params ∧ (key = e.setKey ∨ key = e.readKey) := by
  rw [paramOf, Option.bind_eq_some_iff, ← BitVec.toNat_inj, ← BitVec.toNat_inj, setKey_toNat, readKey_toNat]
  constructor
  · rintro ⟨b, hb, he⟩
    obtain ⟨hm, rfl⟩ := paramOfByte_eq_some.mp he
    exact ⟨hm, ((paramByte_eq_some _ _).mp hb).2.2⟩
  · rintro ⟨he, hk⟩
    have hr := Config.registry.params_range e he
    exact ⟨e.base, (paramByte_eq_some _ _).mpr ⟨hr.1, hr.2, hk⟩, paramOfByte_eq_some.mpr ⟨he, rfl⟩⟩

/-- Everything a key can mean (R138). -/
theorem keyMeaning_cases (key : Half) :
    (∃ c, literalKey c = key ∧ keyMeaning key = .literal c) ∨
    (∃ e ∈ Config.registry.params, (key = e.setKey ∨ key = e.readKey) ∧ keyMeaning key = .parameter (variantOf key) e) ∨
    ((∀ c, literalKey c ≠ key) ∧ (∀ e ∈ Config.registry.params, e.setKey ≠ key ∧ e.readKey ≠ key) ∧
      keyMeaning key = .unrecognized) := by
  unfold keyMeaning
  cases hl : literalOf key with
  | some c => exact .inl ⟨c, literalOf_eq_some.mp hl, rfl⟩
  | none =>
    cases hp : paramOf key with
    | some e => exact .inr (.inl ⟨e, (paramOf_eq_some.mp hp).1, (paramOf_eq_some.mp hp).2, rfl⟩)
    | none =>
      refine .inr (.inr ⟨literalOf_eq_none.mp hl, fun e he => ?_, rfl⟩)
      have hn : ¬ (key = e.setKey ∨ key = e.readKey) := fun hk => by
        rw [paramOf_eq_some.mpr ⟨he, hk⟩] at hp; cases hp
      exact ⟨fun h => hn (.inl h.symm), fun h => hn (.inr h.symm)⟩

theorem keyMeaning_literal (c : Config.LiteralCommand) : keyMeaning (literalKey c) = .literal c := by
  simp [keyMeaning, literalOf_eq_some.mpr rfl]

theorem keyMeaning_param {key : Half} {e : Config.ParamEntry} (he : e ∈ Config.registry.params)
    (hk : key = e.setKey ∨ key = e.readKey) : keyMeaning key = .parameter (variantOf key) e := by
  have hn : literalOf key = none := literalOf_eq_none.mpr fun c hc => by
    rcases hk with rfl | rfl
    · exact (Config.registry.families_apart c e he).1 hc
    · exact (Config.registry.families_apart c e he).2 hc
  simp [keyMeaning, hn, paramOf_eq_some.mpr ⟨he, hk⟩]

end Sys2Proof.Machine
end

