-- ==== Sys2Proof/Tests/Slice0.lean ====
section
/-! SUPPORT. Own tests. Expected values are those of spec/95_test_vectors.md, named in the comments (S, K, VF, E, DV, F),
or of the rule named. The second part gives, for every statement with hypotheses, a state and operands that meet them. -/
namespace Sys2Proof.Tests

open Sys2Proof.Machine

/-! ## WellFormed refuses -/

theorem test_wf_refuses_verify_nothing : (Instr.verify []).wellFormed = false := by decide
set_option maxRecDepth 20000 in
theorem test_wf_refuses_long_beat : (Instr.rxData (List.replicate 257 0#8)).wellFormed = false := rfl
theorem test_wf_refuses_dirH2d_with_key : (Instr.dirH2d ⟨0, 0, 6, 0, 0, 0, 0x00, 0x62⟩ []).wellFormed = false := by decide
theorem test_wf_refuses_dirD2h_with_key : (Instr.dirD2h ⟨0, 0, 6, 0, 0, 0, 0xFF, 0xFF⟩ []).wellFormed = false := by decide
theorem test_wf_refuses_paramSet_below : (Instr.keyParamSet ⟨0, 0, 0, 6, 0, 0, 0⟩ 0x60 []).wellFormed = false := by decide
theorem test_wf_refuses_paramSet_pattern : (Instr.keyParamSet ⟨0, 0, 0, 6, 0, 0, 0⟩ 0x62 []).wellFormed = false := by decide
theorem test_wf_refuses_paramRead_above : (Instr.keyParamRead ⟨0, 0, 0, 6, 0, 0, 0⟩ 0xAC []).wellFormed = false := by decide
theorem test_wf_refuses_frame_of_a_class : (Instr.frame ⟨0xAA, 0, 0, 6, 0, 0, 0, 0, 0⟩ []).wellFormed = false := by decide
theorem test_wf_accepts_range_ends :
    (Instr.keyParamSet ⟨0, 0, 0, 6, 0, 0, 0⟩ 0x61 []).wellFormed && (Instr.keyParamRead ⟨0, 0, 0, 6, 0, 0, 0⟩ 0xAB []).wellFormed = true := by
  decide

/-! ## Decoding: every constructor's request written out from R67 and R50 -/

theorem test_decode_reset : decode (.op 0x1#4 []) = .instr .reset := by decide
theorem test_decode_start : decode (.op 0x2#4 []) = .instr .start := by decide
theorem test_decode_rxData : decode (.op 0x3#4 [0xAA, 0x00, 0x00, 0x06]) = .instr (.rxData [0xAA, 0x00, 0x00, 0x06]) := by decide
theorem test_decode_rxWouldBlock : decode (.op 0x4#4 []) = .instr .rxWouldBlock := by decide
theorem test_decode_rxError : decode (.op 0x5#4 []) = .instr .rxError := by decide
theorem test_decode_tick : decode (.op 0x6#4 []) = .instr .tick := by decide
theorem test_decode_csClear : decode (.op 0x7#4 []) = .instr .csClear := by decide
theorem test_decode_csAdd : decode (.op 0x8#4 [0x3F]) = .instr (.csAdd 0x3F) := by decide
theorem test_decode_checksum : decode (.op 0x9#4 [0x12, 0x34]) = .instr (.checksum [0x12, 0x34]) := by decide
theorem test_decode_verify : decode (.op 0xA#4 [0x01, 0xFF]) = .instr (.verify [0x01, 0xFF]) := by decide
theorem test_decode_encode : decode (.op 0xB#4 [0x12, 0x34, 0x05, 0x07]) = .instr (.encode 0x1234 [0x05, 0x07]) := by decide
theorem test_decode_decode : decode (.op 0xC#4 [0xAA]) = .instr (.decode [0xAA]) := by decide
theorem test_decode_dirH2d :
    decode (.frame [0xAA, 1, 2, 5, 0, 3, 4, 0x12, 0x34, 0x77]) = .instr (.dirH2d ⟨1, 2, 5, 0, 3, 4, 0x12, 0x34⟩ [0x77]) := by decide
theorem test_decode_dirD2h :
    decode (.frame [0xAB, 1, 2, 5, 0, 3, 4, 0x12, 0x34]) = .instr (.dirD2h ⟨1, 2, 5, 0, 3, 4, 0x12, 0x34⟩ []) := by decide
theorem test_decode_keyResponse :
    decode (.frame [0xAB, 0, 0, 8, 0, 0, 0, 0xFF, 0xFF, 0, 0x62, 0, 0xED]) =
      .instr (.keyResponse ⟨0xAB, 0, 0, 8, 0, 0, 0⟩ [0, 0x62, 0, 0xED]) := by decide
theorem test_decode_keyParamSet :
    decode (.frame [0xAA, 0, 0, 6, 0, 0, 0, 0x00, 0x61, 9]) = .instr (.keyParamSet ⟨0xAA, 0, 0, 6, 0, 0, 0⟩ 0x61 [9]) := by decide
theorem test_decode_keyParamRead :
    decode (.frame [0xAA, 0, 0, 5, 0, 0, 0, 0x80, 0xAB]) = .instr (.keyParamRead ⟨0xAA, 0, 0, 5, 0, 0, 0⟩ 0xAB []) := by decide
theorem test_decode_keySetPattern :
    decode (.frame [0xAA, 0, 0, 6, 0, 0, 0, 0x00, 0x62, 3, 0xEB]) = .instr (.keySetPattern ⟨0xAA, 0, 0, 6, 0, 0, 0⟩ [3, 0xEB]) := by
  decide
theorem test_decode_keyReadPattern :
    decode (.frame [0xAA, 0, 0, 5, 0, 0, 0, 0x80, 0x62, 0x6F]) = .instr (.keyReadPattern ⟨0xAA, 0, 0, 5, 0, 0, 0⟩ [0x6F]) := by decide
theorem test_decode_frame :
    decode (.frame [0x55, 0, 0, 5, 0, 0, 0, 0, 0, 0xA6]) = .instr (.frame ⟨0x55, 0, 0, 5, 0, 0, 0, 0, 0⟩ [0xA6]) := by decide

/-- Codes 0x0 and 0xD to 0xF are no event (R67). -/
theorem test_decode_no_event :
    decode (.op 0x0#4 []) = .noEvent ∧ decode (.op 0xD#4 [1]) = .noEvent ∧ decode (.op 0xF#4 []) = .noEvent := by decide
theorem test_decode_rejects :
    decode (.op 0x1#4 [0]) = .rejected .strayOperands ∧ decode (.op 0x8#4 []) = .rejected .csAddOperand ∧
    decode (.op 0xB#4 [0]) = .rejected .encodeKeyMissing ∧ decode (.frame [0xAA]) = .rejected .headerMissing := by decide

/-- The table's words: each row's own `match` (R70). -/
theorem test_table_words :
    decodeTableWord 8 0x1 = some .reset ∧ decodeTableWord 8 0xA = some (.verify [0]) ∧ decodeTableWord 8 0x0 = none ∧
    decodeTableWord 72 0xAA0000000000000000 = some (.dirH2d ⟨0, 0, 0, 0, 0, 0, 0, 0⟩ []) ∧
    decodeTableWord 72 0x00000000000000FFFF = some (.keyResponse ⟨0, 0, 0, 0, 0, 0, 0⟩ []) ∧
    decodeTableWord 72 0x000000000000008062 = some (.keyReadPattern ⟨0, 0, 0, 0, 0, 0, 0⟩ []) := by decide

theorem test_step_runs_a_table_word :
    step (State.reset.withFetchWord 8 0x2) = .next State.reset.beginRun := by rfl

/-! ## The checksum unit -/

/-- K5, K6, K8, K11. -/
theorem test_checksum_vectors :
    checksumOf [0x80, 0x80] = 0x00 ∧ checksumOf [0xFF, 0xFF] = 0x02 ∧ checksumOf [0x12, 0x34, 0x56] = 0x64 ∧
    checksumOf [0xAA, 0, 0, 6, 0, 0, 0, 0, 0x62, 3] = 0xEB := by decide
/-- VF1, VF4, VF7, VF9, VF10. -/
theorem test_verify_vectors :
    verifyOf [0x00] = some true ∧ verifyOf [0x01, 0xFE] = some false ∧
    verifyOf [0xAA, 0, 0, 6, 0, 0, 0, 0, 0x62, 3, 0xEA] = some false ∧
    verifyOf [0xAA, 0, 0, 6, 0, 0, 0, 0, 0x63, 2, 0xEB] = some true ∧ verifyOf [] = none := by decide
/-- R83: the carry is dropped. -/
theorem test_csAdd_wraps : accAdd 0xFF 0xFF = 0xFE ∧ accAdd 0xAA 0x62 = 0x0C := by decide
/-- Script of 2.3, its last two lines. -/
theorem test_cs_outputs :
    (State.reset.setAcc 0x15).csChk = 0xEB ∧ (State.reset.setAcc 0x15).csZero = false ∧ (State.reset.setAcc 0).csChk = 0 := by decide

/-! ## The builder and the parser -/

/-- E1 (S1), E3, E4. -/
theorem test_encode_vectors :
    buildFrame 0x0062 [0x03] = .ok [0xAA, 0, 0, 6, 0, 0, 0, 0, 0x62, 0x03, 0xEB] ∧
    buildFrame 0x8062 [] = .ok [0xAA, 0, 0, 5, 0, 0, 0, 0x80, 0x62, 0x6F] ∧
    buildFrame 0x1234 [5, 7] = .ok [0xAA, 0, 0, 7, 0, 0, 0, 0x12, 0x34, 5, 7, 0xFD] := by decide
set_option maxRecDepth 20000 in
/-- E7. -/
theorem test_encode_too_large : buildFrame 0 (List.replicate 247 0#8) = .bufferTooLarge := rfl
/-- DV4: every field of a device frame. -/
theorem test_decode_device_frame :
    parseFrame [0xAB, 1, 2, 7, 0, 0x11, 0x22, 0x80, 0x63, 5, 9, 0x27] =
      .ok ⟨0xAB, .d2h, 1, 2, 0x0201, 7, 2, 0x11, 0x22, 0x8063, [5, 9], 0x27, 0x27, true⟩ := by decide
/-- DV3, DV5, DV6, DV7, DV8, DV9, DV10, DV11. -/
theorem test_decode_corners :
    parseFrame [0xAA, 0, 0, 6, 0, 0, 0, 0, 0x62, 4, 0xEB] = .ok ⟨0xAA, .h2d, 0, 0, 0, 6, 1, 0, 0, 0x62, [4], 0xEB, 0xEA, false⟩ ∧
    parseFrame [0x55, 0, 0, 5, 0, 0, 0, 0, 0, 0xA6] = .ok ⟨0x55, .unknown, 0, 0, 0, 5, 0, 0, 0, 0, [], 0xA6, 0xA6, true⟩ ∧
    parseFrame [0xAA, 0, 0, 6, 0, 0, 0, 0, 0x62, 3] = .malformed .short ∧
    parseFrame [0xAA, 0, 0, 6, 0, 0, 0, 0, 0x62, 3, 0xEB, 0x99, 0x98] = parseFrame [0xAA, 0, 0, 6, 0, 0, 0, 0, 0x62, 3, 0xEB] ∧
    parseFrame [0xAA, 0, 0, 4, 0, 0, 0, 0, 0x62] = .malformed .lengthUnderflow ∧
    parseFrame [0xAA, 0, 0, 0, 0, 0, 0, 0, 0x62, 3, 0xEB] = .malformed .lengthUnderflow ∧
    parseFrame [0xAA, 0, 0, 6, 0, 0, 0, 0] = .malformed .headerShort ∧ parseFrame [] = .malformed .headerShort := by decide
set_option maxRecDepth 20000 in
/-- DV12: the total is not wrapped to 16 bits. -/
theorem test_decode_total_does_not_wrap :
    parseFrame ([0xAA, 0, 0, 0xFF, 0xFF] ++ List.replicate 251 0#8) = .malformed .short := rfl
/-- R65, R70: the rows of the frame S1. -/
theorem test_rows_of_S1 :
    rowsOf ⟨0xAA, 0, 0, 6, 0, 0, 0, 0, 0x62⟩ = [.dirH2d, .keyParamSet, .keySetPattern, .frame] := by decide

/-! ## The reassembler, with the parameters of the vectors -/

/-- A state in `Accumulating` that has received these bytes. -/
def receiving (bytes : List Byte) (timer : Nat) : State :=
  { State.reset with state := .accumulating, rxbuf := Memory.storeList [] 0 bytes, cnt := bytes.length, timer := timer }

/-- The ten bytes of S1's frame without its trailer, and the frame. -/
def s1Body : List Byte := [0xAA, 0, 0, 6, 0, 0, 0, 0, 0x62, 3]
def s1Frame : List Byte := s1Body ++ [0xEB]

/-- What a test looks at: STATE, CNT, TIMER. -/
def view : Result → Option (RxState × Nat × Nat)
  | .next s => some (s.state, s.cnt, s.timer)
  | .fault _ => none
  | .refused _ => none

/-- F10, F11, F12. -/
theorem test_rx_completes :
    view (rxDataOp 256 [0, 0, 0, 0, 0x62] (receiving [0xAA, 0, 0, 6] 0)) = some (.accumulating, 9, 0) ∧
    view (rxDataOp 256 [3] (receiving [0xAA, 0, 0, 6, 0, 0, 0, 0, 0x62] 0)) = some (.accumulating, 10, 0) ∧
    view (rxDataOp 256 [0xEB] (receiving s1Body 0)) = some (.complete, 11, 0) := by decide
/-- F13 and P6 with LL = 03 and 05: the surplus is dropped. -/
theorem test_rx_truncates :
    view (rxDataOp 256 [0xEB, 0xAA, 0] (receiving s1Body 0)) = some (.complete, 11, 0) ∧
    view (rxDataOp 256 [0xAA, 0, 0, 3, 0, 0, 0, 0, 0x62, 3, 0xEB] (receiving [] 0)) = some (.complete, 8, 0) ∧
    view (rxDataOp 256 [0xAA, 0, 0, 5, 0, 0, 0, 0, 0x62, 3, 0xEB] (receiving [] 0)) = some (.complete, 10, 0) := by decide
/-- F22, F23. -/
theorem test_rx_refuses :
    rxDataOp 256 (List.replicate 7 0#8) { receiving [] 0 with cnt := 250 } = .refused .beatTooLarge ∧
    rxDataOp 1 [0xAA, 0] (receiving [] 0) = .refused .beatTooLarge := ⟨rfl, rfl⟩
/-- F15, F16, F17. -/
theorem test_tick :
    tickOp 3 (receiving s1Body 1) = receiving s1Body 2 ∧ view (.next (tickOp 3 (receiving s1Body 2))) = some (.timedOut, 0, 3) ∧
    tickOp 3 ((receiving s1Body 1).completeRun 10) = (receiving s1Body 1).completeRun 10 := by decide
/-- F14 and F18. -/
theorem test_rxError :
    view (execRxError (receiving s1Body 2)) = some (.transportError, 0, 2) ∧
    view (execRxError ((receiving s1Body 1).completeRun 10)) = some (.complete, 10, 1) := by decide
/-- F2, F5. -/
theorem test_start :
    view (execStart ((receiving s1Body 1).completeRun 10)) = some (.accumulating, 0, 0) ∧
    view (execStart (receiving s1Body 1)) = some (.accumulating, 10, 1) := by decide
/-- F20: RESET clears ACC too. -/
theorem test_reset : execReset ((receiving s1Body 2).setAcc 0x15) = .next { State.reset with rxbuf := Memory.storeList [] 0 s1Body } := by rfl
/-- P1's end: RESULT is DV1's packet. -/
theorem test_result :
    ((receiving s1Frame 1).completeRun 11).result =
      some (.ok ⟨0xAA, .h2d, 0, 0, 0, 6, 1, 0, 0, 0x62, [3], 0xEB, 0xEB, true⟩) ∧ (receiving s1Frame 1).result = none := by decide
/-- 2.7, and RESET winning its cycle (R124). -/
theorem test_serialise :
    serialise .rxFirst [.op 6 [], .op 3 [0xAA]] = [.op 3 [0xAA], .op 6 []] ∧
    serialise .tickFirst [.op 3 [0xAA], .op 6 []] = [.op 6 [], .op 3 [0xAA]] ∧
    serialise .rxFirst [.op 6 [], .op 1 [], .op 2 []] = [.op 1 []] ∧
    serialise .tickFirst [.op 6 [], .op 2 []] = [.op 2 [], .op 6 []] := by decide
/-- A cycle with two requests takes two steps. -/
theorem test_fetch_keeps_the_rest :
    fetchWith .tickFirst { State.reset with inbox := [[.op 6 [], .op 2 []], []] } =
      .request (.op 2 []) { State.reset with inbox := [[.op 6 []], []] } := by decide
/-- S2, N3: the response's echoed key, and R141. -/
theorem test_software :
    responseOf [0x00, 0x62, 0x00] = some (0x0062, 0x00) ∧ valueLabel ["a", "b"] 1 = .label "b" ∧
    valueLabel ["a", "b"] 2 = .indexOutOfRange ∧ paramByte 0x8062 = some 0x62 ∧ paramByte 0x0162 = none := by decide

/-- R142: the dump is of the packet's own frame, DV1 and DV7 alike; 13 bytes (S2) are 8 and 5, 17 take a second row. -/
theorem test_report :
    (match parseFrame (s1Frame ++ [0x99, 0x98]) with | .ok p => packetBytes p | .malformed _ => []) = s1Frame ∧
    (dumpRows 13 (s1Frame ++ [0x99, 0x98])).map (fun r => (r.left, r.right.length)) = [(s1Frame.take 8, 5)] ∧
    (dumpRows 17 (List.replicate 17 0)).map (fun r => (r.left.length, r.right.length)) = [(8, 8), (1, 0)] := by decide
/-- R137: set-pattern's two keys, in both directions of the registry. -/
theorem test_registry : commandOf 0xFFFF = some (.literal .response) ∧ wireKey (.literal .response) = some 0xFFFF := by
  have h : literalKey .response = 0xFFFF := Config.registry.response_key
  refine ⟨?_, by rw [wireKey, h]⟩
  rw [← h, commandOf, keyMeaning_literal]

/-! ## Witnesses: hypotheses of the statements, met -/

theorem deadline_pos : 0 < Config.deadlineTicks := Nat.succ_pos _
theorem one_le_beatMax : 1 ≤ Config.rxBeatMax := Nat.succ_pos _

/-- The invariants of a state that has received bytes which do not complete. -/
theorem inv_receiving (bytes : List Byte) (timer : Nat) (hl : bytes.length ≤ 256) (ht : timer < Config.deadlineTicks)
    (hn : (receiving bytes timer).cnt < 9 ∨ ∀ T, (receiving bytes timer).bufferTotal = some T → (receiving bytes timer).cnt < T) :
    Inv (receiving bytes timer) := by
  have hwf : Memory.wf [] := ⟨List.Pairwise.nil, by simp⟩
  refine ⟨⟨Memory.storeList_wf bytes hwf (by simpa using hl), fun a ha => ?_⟩, hl, ?_, fun _ => ⟨ht, hn⟩, ?_, Nat.le_of_lt ht, ?_⟩
  · have := Memory.load_storeList_inside [] 0 bytes a ha
    rw [Nat.zero_add] at this
    show (Memory.load (Memory.storeList [] 0 bytes) a).isSome = true
    rw [this]; rfl
  · rintro (h | h | h) <;> cases h
  · intro h; cases h
  · intro h; exact absurd h (Nat.ne_of_lt ht)

/-- S1's frame in `Complete`. -/
def s1Complete : State := (receiving s1Frame 0).completeRun 11

theorem witness_Inv_accumulating : Inv (receiving s1Body 0) :=
  inv_receiving _ _ (by decide) deadline_pos (.inr fun T h => by
    rw [show (receiving s1Body 0).bufferTotal = some 11 by decide] at h; cases h; decide)

theorem witness_Inv_complete : Inv s1Complete := by
  have hwf : Memory.wf [] := ⟨List.Pairwise.nil, by simp⟩
  refine ⟨⟨Memory.storeList_wf s1Frame hwf (by decide), ?_⟩, by unfold V1; decide, ?_, ?_, fun _ => by decide, ?_, ?_⟩
  · intro a ha
    have : a < 11 := ha
    have := Memory.load_storeList_inside [] 0 s1Frame a this
    rw [Nat.zero_add] at this
    show (Memory.load (Memory.storeList [] 0 s1Frame) a).isSome = true
    rw [this]; rfl
  · rintro (h | h | h) <;> cases h
  · intro h; cases h
  · exact Nat.zero_le _
  · intro h; exact absurd h.symm (Nat.ne_of_gt deadline_pos)

/-- RX_DATA of one byte is within the bound for every RX_BEAT_MAX. -/
theorem rx_one {s : State} (b : Byte) (hs : s.state = .accumulating) (hc : s.cnt < 256) :
    exec (.rxData [b]) s = lengthTest (s.appended [b]) :=
  rxDataOp_accepted (beatMax := Config.rxBeatMax) hs (Nat.le_of_lt hc) (by
    have := one_le_beatMax
    simp only [State.beatBound, State.offeredSpace, Config.maxFrame, List.length_singleton]
    omega)

/-- EveryStepKeepsTheInvariants: a state with the invariants whose step goes on. -/
theorem witness_step_next : Inv (receiving s1Body 0) ∧ step (receiving s1Body 0) = .next (receiving s1Body 0) :=
  ⟨witness_Inv_accumulating, rfl⟩
/-- EveryReachableStateMeetsTheInvariants: a run of two events. -/
theorem witness_run :
    Host.Core.run Sys2Proof.core 2 { State.reset with inbox := [[.op 2#4 []], [.op 5#4 []]] } =
      .next { State.reset with state := RxState.transportError } := by rfl
/-- OnlyTwoRefusals, both kinds; RxDataOverItsBoundIsRefused. -/
theorem witness_refusals :
    exec (.verify []) State.reset = .refused .verifyEmpty ∧
    (receiving [] 0).state = .accumulating ∧ min Config.rxBeatMax (256 - (receiving [] 0).cnt) < (List.replicate 257 0#8).length := by
  refine ⟨rfl, rfl, ?_⟩
  have : min Config.rxBeatMax (256 - (receiving [] 0).cnt) ≤ 256 := Nat.le_trans (Nat.min_le_right _ _) (Nat.sub_le _ _)
  rw [List.length_replicate]; omega
/-- StreamingPortComputesTheFunctions: a list with an addition and another instruction between; and an empty sum. -/
theorem witness_sum :
    (∀ i ∈ [Instr.csAdd 0xAA, .rxWouldBlock, .csAdd 0x62], keepsSum i = true) ∧
    addedBytes [Instr.csAdd 0xAA, .rxWouldBlock, .csAdd 0x62] ≠ [] ∧ addedBytes [Instr.rxWouldBlock] = [] ∧
    execList [.csClear, .csAdd 0xAA, .rxWouldBlock, .csAdd 0x62] State.reset = .next (State.reset.setAcc 0x0C) :=
  ⟨by decide, by decide, rfl, rfl⟩
/-- ChecksumReturnsTheNegatedSum: K8 and K9; VerifyHoldsExactlyWhenTheSumIsZero: VF3. -/
theorem witness_checksum : [0x12#8, 0x34#8, 0x56#8].Perm [0x56#8, 0x12#8, 0x34#8] ∧ [0x01#8, 0xFF#8] ≠ [] := by decide
/-- EncodeBuildsTheFrame, EncodeLengthFieldIsConsistent, EncodedFrameComesBackWhole: 246 and 247 bytes, and S1 fed in
one-byte beats. -/
theorem witness_encode :
    (List.replicate 246 0#8).length ≤ 246 ∧ 247 ≤ (List.replicate 247 0#8).length ∧ State.reset.state ≠ .accumulating ∧
    (s1Frame.map fun b => [b]).flatten = s1Frame ∧ ∀ b ∈ s1Frame.map fun b => [b], b.length ≤ Config.rxBeatMax := by
  refine ⟨Nat.le_of_eq List.length_replicate, Nat.le_of_eq List.length_replicate.symm, by decide, rfl, fun b hb => ?_⟩
  obtain ⟨x, -, rfl⟩ := List.mem_map.mp hb
  exact one_le_beatMax
/-- DecodeParsesByTheLengthField: eight bytes; declared lengths 4 and 5; nine and ten bytes. DecodeIgnoresBytesAfterTheFrame
at `L = 4`, and why not at 3. -/
theorem witness_decode :
    4 ≤ (u16le 4 0).toNat ∧ parseFrame ((Header.mk 0xAA 0 0 3 0 0 0 0 0).bytes ++ [1]) = .malformed .lengthUnderflow ∧
    parseFrame (((Header.mk 0xAA 0 0 3 0 0 0 0 0).bytes ++ [1]).take (5 + 3)) = .malformed .headerShort ∧
    ([0, 0, 0, 0, 0, 0, 0, 0] : List Byte).length < 9 ∧ (u16le 4 0).toNat < 5 ∧ 5 ≤ (u16le 5 0).toNat ∧
    ((Header.mk 0xAA 0 0 5 0 0 0 0 0).bytes ++ []).length < 5 + (u16le 5 0).toNat ∧
    5 + (u16le 5 0).toNat ≤ ((Header.mk 0xAA 0 0 5 0 0 0 0 0).bytes ++ [0x51]).length := by decide
set_option maxRecDepth 20000 in
/-- DecodedPayloadHasTheDeclaredLength, DirectionLabelFollowsByteZero, OnlyLengthsCanMakeAParseFail: the longest frame's
declared length and the shortest's. -/
theorem witness_parse_ok :
    (∃ p, parseFrame ([0x55, 0, 0, 0xFB, 0, 0, 0, 0, 0] ++ List.replicate 247 0#8) = .ok p ∧ p.declaredLength.toNat = 251 ∧
      p.dirLabel = .unknown) ∧
    (∃ p, parseFrame [0xAA, 0, 0, 5, 0, 0, 0, 0, 0, 0x51] = .ok p ∧ p.declaredLength.toNat = 5 ∧ p.dirLabel = .h2d) ∧
    (Header.mk 0xAA 0 0 5 0 0 0 0 0).lenLo = (Header.mk 0x55 1 2 5 0 3 4 5 6).lenLo := by
  exact ⟨⟨_, rfl, rfl, rfl⟩, ⟨_, rfl, rfl, rfl⟩, rfl⟩
/-- FunctionsChangeNoState. -/
theorem witness_function : isFunction (.checksum [1]) = true ∧
    exec (.checksum [1]) State.reset = .next (State.reset.answer (.byte 0xFF)) := ⟨rfl, rfl⟩
/-- The frame rows' packets: a whole frame of each class parses; FrameRowParsesAnyHeader's lengths. -/
theorem witness_frames :
    (∃ p, parseFrame (((AfterDir.mk 0 0 5 0 0 0 0 0).header 0xAA).bytes ++ [0x51]) = .ok p) ∧
    (∃ p, parseFrame (((AfterDir.mk 0 0 5 0 0 0 0 0).header 0xAB).bytes ++ [0x50]) = .ok p) ∧
    (∃ p, parseFrame (((BeforeKey.mk 0xAB 0 0 5 0 0 0).header 0xFF 0xFF).bytes ++ [0]) = .ok p) ∧
    (∃ p, parseFrame (((BeforeKey.mk 0xAA 0 0 5 0 0 0).header 0x00 0x61).bytes ++ [0]) = .ok p) ∧
    (∃ p, parseFrame (((BeforeKey.mk 0xAA 0 0 5 0 0 0).header 0x80 0xAB).bytes ++ [0]) = .ok p) ∧
    (u16le 5 0).toNat = ([0x51] : List Byte).length + 4 :=
  ⟨⟨_, rfl⟩, ⟨_, rfl⟩, ⟨_, rfl⟩, ⟨_, rfl⟩, ⟨_, rfl⟩, by decide⟩
/-- StartBeginsARunOrIsIgnored, RxErrorEndsTheRun: both sides. -/
theorem witness_start : State.reset.state ≠ .accumulating ∧ (receiving [] 0).state = .accumulating := by decide

/-- Nine bytes of a header declaring `lo`, less the last. -/
def header8 (lo : Byte) : List Byte := [0xAA, 0, 0, lo, 0, 0, 0, 0]

theorem witness_Inv_header8 (lo : Byte) : Inv (receiving (header8 lo) 0) :=
  inv_receiving _ _ (by simp [header8]) deadline_pos (.inl (by simp [receiving, header8]))

theorem one_in_bound (s : State) (h : s.cnt < 256) : ([0x62#8] : List Byte).length ≤ min Config.rxBeatMax (256 - s.cnt) := by
  have := one_le_beatMax
  simp only [List.length_singleton]; omega

/-- RxDataAppendsThenTestsTheLength at its boundaries: the ninth byte completes with `L = 4`, not with `L = 5`; the
eighth tests nothing. UndersizedLengthCompletesMalformed for `L = 3` and `L = 4`. -/
theorem witness_rx :
    Inv (receiving (header8 4) 0) ∧ ([0x62#8] : List Byte).length ≤ min Config.rxBeatMax (256 - (receiving (header8 4) 0).cnt) ∧
    exec (.rxData [0x62]) (receiving (header8 4) 0) = .next (((receiving (header8 4) 0).appended [0x62]).completeRun 9) ∧
    exec (.rxData [0x62]) (receiving (header8 3) 0) = .next (((receiving (header8 3) 0).appended [0x62]).completeRun 8) ∧
    exec (.rxData [0x62]) (receiving (header8 5) 0) = .next ((receiving (header8 5) 0).appended [0x62]) ∧
    exec (.rxData [0x62]) (receiving [0xAA, 0, 0, 4, 0, 0, 0] 0) = .next ((receiving [0xAA, 0, 0, 4, 0, 0, 0] 0).appended [0x62]) := by
  refine ⟨witness_Inv_header8 4, one_in_bound _ (by decide), ?_, ?_, ?_, ?_⟩ <;> rw [rx_one _ rfl (by decide)] <;> rfl
theorem witness_undersized :
    (Memory.storeList (receiving (header8 4) 0).rxbuf 8 [0x62]).load 3 = some 4 ∧
    (Memory.storeList (receiving (header8 4) 0).rxbuf 8 [0x62]).load 4 = some 0 ∧ (u16le 4 0).toNat ≤ 4 ∧
    (Memory.storeList (receiving (header8 3) 0).rxbuf 8 [0x62]).load 3 = some 3 ∧ (u16le 3 0).toNat ≤ 3 := by decide
/-- TickCountsToTheDeadline, LastTickAgainstCompletingBeat: the last tick, one that is not the last, and the completing
beat before it. -/
theorem witness_last_tick :
    (receiving s1Body Config.deadlineTicksLessOne).timer + 1 = Config.deadlineTicks ∧
    (receiving s1Body Config.deadlineTicks).timer + 1 ≠ Config.deadlineTicks ∧
    ∃ t, exec (.rxData [0xEB]) (receiving s1Body Config.deadlineTicksLessOne) = .next t ∧ t.state = .complete := by
  refine ⟨rfl, Nat.succ_ne_self _, ?_⟩
  rw [rx_one _ rfl (by decide : 10 < 256)]
  exact ⟨_, rfl, rfl⟩
/-- RunEndsWithinTheDeadline: one tick before the deadline, one tick. -/
theorem witness_run_ends :
    Inv (receiving [] Config.deadlineTicksLessOne) ∧ keepsRun .tick = true ∧
    Config.deadlineTicks ≤ (receiving [] Config.deadlineTicksLessOne).timer + tickCount [.tick] ∧
    ∃ t, execList [.tick] (receiving [] Config.deadlineTicksLessOne) = .next t :=
  ⟨inv_receiving _ _ (by simp) (Nat.lt_succ_self _) (.inl (by simp [receiving])), by decide, Nat.le_refl _, ⟨_, rfl⟩⟩
/-- A run with one tick before every step, from one tick before the deadline. -/
def tickingStates : Nat → State
  | 0 => receiving [] Config.deadlineTicksLessOne
  | _ + 1 => { State.reset with state := .timedOut, timer := Config.deadlineTicks }

def tickingRun : Run where
  arrivals := fun _ => [[.op 0x6#4 []]]
  states := tickingStates
  steps
    | 0 => by
      show Host.Outcome.next (tickOp Config.deadlineTicks (receiving [] Config.deadlineTicksLessOne)) = _
      rw [tickOp_inside rfl]
      exact congrArg _ (if_pos rfl)
    | _ + 1 => rfl

/-- RunEndsWithinTheDeadline, its infinite run. -/
theorem witness_fair_run : Inv (tickingRun.states 0) ∧ tickingRun.FairTicks :=
  ⟨witness_run_ends.1, fun _ n => ⟨n, Nat.le_refl _, by cases n <;> exact ⟨_, _, rfl, by decide⟩⟩⟩
/-- SilentRunTimesOutExactlyAtTheDeadline: below the deadline for every deadline, and a run of exactly so many ticks. -/
theorem witness_silent :
    (∀ i ∈ [Instr.rxWouldBlock, .rxData []], silentOrTick i = true) ∧ tickCount [Instr.rxWouldBlock, .rxData []] < Config.deadlineTicks ∧
    (∀ i ∈ List.replicate Config.deadlineTicks Instr.tick, silentOrTick i = true) ∧
    ∀ n, tickCount (List.replicate n Instr.tick) = n := by
  refine ⟨by decide, deadline_pos, fun i h => by rw [List.eq_of_mem_replicate h]; rfl, fun n => ?_⟩
  rw [tickCount, List.countP_replicate]; rfl
/-- CompleteIsEnteredOnlyWithAWholeFrame, OnlyResetCancelsARun, BytesBelowCntAreNeverOverwritten,
OnlyRxDataWritesTheBuffer: the completing beat. -/
theorem witness_completes :
    ∃ t, exec (.rxData [0xEB]) (receiving s1Body 0) = .next t ∧ t.state = .complete ∧ t.rxbuf ≠ (receiving s1Body 0).rxbuf := by
  rw [rx_one _ rfl (by decide : 10 < 256)]
  exact ⟨_, rfl, rfl, by decide⟩
/-- OversizedLengthNeverCompletes: P5's header. -/
theorem witness_oversized :
    Inv (receiving [0xAA, 0, 0, 0xFC, 0, 0, 0, 0, 0x62] 0) ∧
    (receiving [0xAA, 0, 0, 0xFC, 0, 0, 0, 0, 0x62] 0).bufferLength = some 252 ∧
    execList [.rxWouldBlock] (receiving [0xAA, 0, 0, 0xFC, 0, 0, 0, 0, 0x62] 0) =
      .next (receiving [0xAA, 0, 0, 0xFC, 0, 0, 0, 0, 0x62] 0) ∧ keepsRun .rxWouldBlock = true := by
  refine ⟨inv_receiving _ _ (by decide) deadline_pos (.inr fun T h => ?_), by decide, rfl, by decide⟩
  rw [show (receiving [0xAA, 0, 0, 0xFC, 0, 0, 0, 0, 0x62] 0).bufferTotal = some 257 by decide] at h
  cases h; decide
/-- BeatBoundariesDoNotMatter: two cuts of two bytes. -/
theorem witness_cuts :
    ([[3], [0xEB]] : List (List Byte)).flatten = ([[3], [], [0xEB]] : List (List Byte)).flatten ∧
    ([[3], [0xEB]] : List (List Byte)).flatten.length ≤ 256 - (receiving (header8 5) 0).cnt ∧
    ∀ b ∈ ([[3], [], [0xEB]] : List (List Byte)), b.length ≤ Config.rxBeatMax := by
  refine ⟨rfl, by decide, fun b hb => ?_⟩
  have := one_le_beatMax
  simp at hb
  rcases hb with rfl | rfl | rfl <;> simp <;> omega
/-- FirstVerdictStands: a late error and a late beat in `Complete`. -/
theorem witness_verdict :
    s1Complete.state.terminal = true ∧ (∀ i ∈ [Instr.rxError, .rxData [0]], keepsRun i = true) ∧
    execList [.rxError, .rxData [0]] s1Complete = .next s1Complete := ⟨rfl, by decide, rfl⟩
/-- OnlyStartAndResetLeaveARestState, TimerMovesOnlyByTicks. -/
theorem witness_leave :
    exec .start ((receiving [] 2).endRun .timedOut) = .next (receiving [] 0) ∧
    ((receiving [] 2).endRun .timedOut).state ≠ .accumulating ∧ (receiving [] 0).timer ≠ ((receiving [] 2).endRun .timedOut).timer :=
  ⟨rfl, by decide, by decide⟩
/-- OnlyThePortAndResetWriteAcc. -/
theorem witness_acc : exec (.csAdd 1) State.reset = .next (State.reset.setAcc 1) ∧ (State.reset.setAcc 1).acc ≠ State.reset.acc :=
  ⟨rfl, by decide⟩
/-- NothingDependsOnBytesAboveCnt: two states that differ above `CNT` only. -/
theorem witness_same_to_host :
    SameToHost ((receiving s1Frame 0).setCnt 10) (receiving s1Body 0) ∧ (receiving s1Frame 0).setCnt 10 ≠ receiving s1Body 0 := by
  refine ⟨⟨rfl, rfl, rfl, rfl, fun a => ?_⟩, by decide⟩
  by_cases h : a < 10
  · revert a; decide
  · rw [State.readByte_of_ge (Nat.le_of_not_lt h), State.readByte_of_ge (Nat.le_of_not_lt h)]
/-- ResultIsTheParseInComplete. -/
theorem witness_result : s1Complete.state = .complete ∧ s1Complete.memRead 0 s1Complete.cnt = some s1Frame ∧
    State.reset.state ≠ .complete := by decide
/-- CycleIsSerialisedInOrder: a cycle with a RESET, one without; an inbox whose first cycle is empty, one whose is not. -/
theorem witness_cycle :
    (∃ r ∈ [Request.op 6#4 [], .op 1#4 []], Request.kind r = .reset) ∧
    (∀ r ∈ [Request.op 6#4 [], .op 3#4 []], Request.kind r ≠ .reset) ∧
    ({ State.reset with inbox := [[], [.op 6#4 []]] } : State).inbox = [] :: [[.op 6#4 []]] ∧
    ([.op 6#4 [], .op 2#4 []] : Cycle) ≠ [] := by decide
set_option maxRecDepth 20000 in
/-- DecodeOfEncodeIsTheInstruction: a well-formed instruction of each encoding shape. -/
theorem witness_well_formed :
    (Instr.encode 0xFFFF []).WellFormed ∧ (Instr.rxData (List.replicate 256 0#8)).WellFormed ∧
    (Instr.keyParamSet ⟨0xAA, 0, 0, 6, 0, 0, 0⟩ 0xAB [1]).WellFormed ∧ (Instr.frame ⟨0, 0, 0, 0, 0, 0, 0, 0, 0⟩ []).WellFormed :=
  ⟨by decide, rfl, by decide, by decide⟩
/-- EncodeOfDecodeIsTheRequest, StepRunsTheDecodedInstruction. -/
theorem witness_decodes :
    decode (.op 0xB#4 [0x12, 0x34]) = .instr (.encode 0x1234 []) ∧
    fetch (State.reset.present (.op 0xB#4 [0x12, 0x34])) = .request (.op 0xB#4 [0x12, 0x34]) State.reset ∧ State.reset.inbox = [] ∧
    fetch State.reset = .idle State.reset ∧ fetch (State.reset.present (.op 0 [])) = .request (.op 0 []) State.reset ∧
    decode (.op 0 []) = .noEvent ∧ fetch (State.reset.present (.frame [])) = .request (.frame []) State.reset ∧
    decode (.frame []) = .rejected .headerMissing ∧ step (State.reset.present (.frame [])) = .refused (.undecodable .headerMissing) :=
  ⟨by decide, rfl, rfl, rfl, rfl, by decide, rfl, by decide, rfl⟩
/-- ReservedCodesAreNoEvent. -/
theorem witness_reserved : (0xD#4).toNat ≥ 0xD ∧ (0x0#4 = 0x0#4) := by decide
/-- ValueLabelIsStrict: the last index and one past it, a packet of set-pattern with a payload.
ResponsePayloadIsReadHighByteFirst: a response packet. DescribeNamesEveryKey: both ends of the range. -/
theorem witness_software :
    1 < ["a", "b"].length ∧ ["a", "b"].length ≤ 2 ∧ paramByte 0x0061 = some 0x61 ∧ paramByte 0x80AB = some 0xAB ∧
    (∃ e ∈ Config.registry.params, ∃ p, parseFrame s1Frame = .ok p ∧ p.commandKey = e.setKey ∧ p.payload = [3]) ∧
    ∃ p, parseFrame [0xAB, 0, 0, 8, 0, 0, 0, 0xFF, 0xFF, 0, 0x62, 0, 0xED] = .ok p ∧ p.commandKey = 0xFFFF ∧
      p.payload = [hi8 (0x0062#16).toNat, lo8 (0x0062#16).toNat, 0] := by
  refine ⟨by decide, by decide, by decide, by decide, ?_, _, rfl, rfl, rfl⟩
  obtain ⟨e, he, hk⟩ := Config.registry.has_pattern
  exact ⟨e, he, _, rfl, hk.symm, rfl⟩

/-- DescribeNamesEveryKey: a key of no command, among nine keys outside the parameter range, for any registry. -/
theorem witness_unrecognized :
    ∃ key : Half, (∀ c, literalKey c ≠ key) ∧ ∀ e ∈ Config.registry.params, e.setKey ≠ key ∧ e.readKey ≠ key := by
  suffices h : ∃ i : Fin 9, ∀ c, literalKey c ≠ BitVec.ofNat 16 (0x100 + i.val) by
    obtain ⟨i, hi⟩ := h
    refine ⟨_, hi, fun e _ => ?_⟩
    have hb := e.base.isLt
    rw [Ne, Ne, ← BitVec.toNat_inj, ← BitVec.toNat_inj, setKey_toNat, readKey_toNat, BitVec.toNat_ofNat]
    omega
  by_contra hno
  have hall : ∀ i : Fin 9, ∃ c, literalKey c = BitVec.ofNat 16 (0x100 + i.val) := fun i => by
    by_contra hc
    exact hno ⟨i, fun c h => hc ⟨c, h⟩⟩
  choose f hf using hall
  have hlt : ∀ c : Config.LiteralCommand, c.ctorIdx < 8 := by intro c; cases c <;> decide
  obtain ⟨i, j, hij, he⟩ := Fintype.exists_ne_map_eq_of_card_lt (fun i => (⟨(f i).ctorIdx, hlt _⟩ : Fin 8)) (by simp)
  have hfij : f i = f j := by
    have := Fin.mk.inj he
    revert this
    cases f i <;> cases f j <;> decide
  have := (hf i).symm.trans ((congrArg literalKey hfij).trans (hf j))
  rw [← BitVec.toNat_inj, BitVec.toNat_ofNat, BitVec.toNat_ofNat] at this
  omega

end Sys2Proof.Tests
end

section
/-! SUPPORT. O7: a fault is RX_DATA's alone, in `Accumulating` and within the beat's bound; the invariants shut it out. -/
namespace Sys2Proof.Machine

/-- Everything an instruction that faults can be: a beat within its bound, taken in `Accumulating`. -/
theorem exec_eq_fault {i : Instr} {s : State} {f : Fault} (h : exec i s = .fault f) :
    ∃ bytes, i = .rxData bytes ∧ s.state = .accumulating ∧ bytes.length ≤ s.beatBound Config.rxBeatMax ∧
      rxDataOp Config.rxBeatMax bytes s = .fault f := by
  cases i with
  | rxData bytes =>
    change rxDataOp Config.rxBeatMax bytes s = .fault f at h
    by_cases hs : s.state = .accumulating
    · by_cases hb : bytes.length ≤ s.beatBound Config.rxBeatMax
      · exact ⟨bytes, rfl, hs, hb, h⟩
      · rw [rxDataOp_inside bytes hs, if_neg hb] at h
        cases h
    · rw [rxDataOp_outside bytes hs] at h
      cases h
  | start =>
    by_cases hs : s.state = .accumulating
    · rw [exec, execStart_inside hs] at h; cases h
    · rw [exec, execStart_outside hs] at h; cases h
  | rxError =>
    by_cases hs : s.state = .accumulating
    · rw [exec, execRxError_inside hs] at h; cases h
    · rw [exec, execRxError_outside hs] at h; cases h
  | verify bytes =>
    rw [exec, execVerify] at h
    split at h <;> cases h
  | reset | rxWouldBlock | tick | csClear | csAdd _ | checksum _ | encode _ _ | decode _ | dirH2d _ _ | dirD2h _ _
  | keyResponse _ _ | keyParamSet _ _ _ | keyParamRead _ _ _ | keySetPattern _ _ | keyReadPattern _ _ | frame _ _ => cases h

/-- Where every byte below `CNT` holds a value, the length test goes on. -/
theorem lengthTest_ne_fault {s : State} (h : ∀ a, a < s.cnt → (s.rxbuf.load a).isSome) (f : Fault) :
    lengthTest s ≠ .fault f := by
  intro hf
  rcases lengthTest_valid h with ⟨-, he⟩ | ⟨-, _, _, -, -, -, ⟨-, he⟩ | ⟨-, he⟩⟩ <;> cases he.symm.trans hf

/-- Settles O7: within its bound a beat fits below 256 (V1), and the length test reads only bytes that hold a value. -/
theorem noInstructionFaultsUnderTheInvariants : Obligations.NoInstructionFaultsUnderTheInvariants := by
  intro s i f hinv hf
  obtain ⟨bytes, -, hs, hb, hrx⟩ := exec_eq_fault hf
  obtain ⟨-, hvalid⟩ := hinv.buffer
  rw [rxDataOp_accepted hs hinv.v1 hb] at hrx
  exact lengthTest_ne_fault (appended_valid hvalid bytes) f hrx

end Sys2Proof.Machine
end

section
/-! SUPPORT. The decoder reads back the instruction that the encoder presents (R67, R70). -/
namespace Sys2Proof.Machine

/-- A frame of nine header bytes and a rest is the instruction of its header's class. -/
theorem decode_frame_header (h : Header) (rest : List Byte) :
    decode (.frame (h.bytes ++ rest)) = .instr (frameInstr (classify h) h rest) := rfl

/-- The key's two bytes, high byte first, are the key again. -/
theorem decode_encode_of_key (key : Half) (payload : List Byte) :
    decode (encode (.encode key payload)) = .instr (.encode key payload) :=
  congrArg (fun k => Decoded.instr (.encode k payload)) (u16be_hi8_lo8 key)

/-! The three rows of an exact key come first in the decoder's choice, so the key alone decides it. -/

theorem classify_keyResponse (h : BeforeKey) : classify (h.header 0xFF#8 0xFF#8) = .keyResponse :=
  if_pos ((rowApplies_iff .keyResponse _).mpr ⟨rfl, rfl⟩)

theorem classify_keySetPattern (h : BeforeKey) : classify (h.header 0x00#8 0x62#8) = .keySetPattern := by
  simp [classify, rowApplies_iff, BeforeKey.header]

theorem classify_keyReadPattern (h : BeforeKey) : classify (h.header 0x80#8 0x62#8) = .keyReadPattern := by
  simp [classify, rowApplies_iff, BeforeKey.header]

/-- A frame row's instruction comes back when the row is its header's class. -/
theorem decode_frame_of_classify {h : Header} {row : FrameRow} (hc : classify h = row) (rest : List Byte) :
    decode (.frame (h.bytes ++ rest)) = .instr (frameInstr row h rest) := by
  rw [decode_frame_header, hc]

/-- The decoder reads back every well-formed instruction from the request that presents it. -/
theorem decode_encode {i : Instr} (hi : i.WellFormed) : decode (encode i) = .instr i := by
  cases i with
  | encode key payload => exact decode_encode_of_key key payload
  | dirH2d h rest => exact decode_frame_of_classify (eq_of_beq hi) rest
  | dirD2h h rest => exact decode_frame_of_classify (eq_of_beq hi) rest
  | keyResponse h rest => exact decode_frame_of_classify (classify_keyResponse h) rest
  | keyParamSet h lo rest => exact decode_frame_of_classify (eq_of_beq hi) rest
  | keyParamRead h lo rest => exact decode_frame_of_classify (eq_of_beq hi) rest
  | keySetPattern h rest => exact decode_frame_of_classify (classify_keySetPattern h) rest
  | keyReadPattern h rest => exact decode_frame_of_classify (classify_keyReadPattern h) rest
  | frame h rest => exact decode_frame_of_classify (eq_of_beq hi) rest
  | reset | start | rxData _ | rxWouldBlock | rxError | tick | csClear | csAdd _ | checksum _ | verify _ | decode _ => rfl

end Sys2Proof.Machine
end

section
/-! SUPPORT. O56: what a step does with what it fetches, one equation per case. -/
namespace Sys2Proof.Machine

theorem step_of_idle {s s' : State} (h : fetch s = .idle s') : step s = .next s' := by
  rw [step, h]

theorem step_of_instr {s s' : State} {r : Request} {i : Instr} (h : fetch s = .request r s') (hd : decode r = .instr i) :
    step s = exec i s'.clearReply := by
  simp only [step, h, hd]

theorem step_of_noEvent {s s' : State} {r : Request} (h : fetch s = .request r s') (hd : decode r = .noEvent) :
    step s = .next s' := by
  simp only [step, h, hd]

theorem step_of_rejected {s s' : State} {r : Request} {why : DecodeReject} (h : fetch s = .request r s')
    (hd : decode r = .rejected why) : step s = .refused (.undecodable why) := by
  simp only [step, h, hd]

/-- A well-formed instruction presented alone in front is the one that runs. -/
theorem step_present_encode (s : State) {i : Instr} (hi : i.WellFormed) :
    step (s.present (encode i)) = exec i s.clearReply :=
  step_of_instr (fetchWith_present Config.sameCycleOrder s (encode i)) (decode_encode hi)

theorem step_of_empty_inbox {s : State} (h : s.inbox = []) : step s = .next s :=
  step_of_idle (fetchWith_nil Config.sameCycleOrder h)

/-- Settles O56: the cases of a step, by what is fetched and what it decodes to. -/
theorem stepRunsTheDecodedInstruction : Obligations.StepRunsTheDecodedInstruction :=
  ⟨fun _ _ _ hf => ⟨fun _ hd => step_of_instr hf hd, step_of_noEvent hf, fun _ hd => step_of_rejected hf hd⟩,
    fun _ _ hf => step_of_idle hf, fun s _ hi => step_present_encode s hi, fun _ hs => step_of_empty_inbox hs⟩

end Sys2Proof.Machine
end

section
/-! SUPPORT. O3 to O6: the invariants V1 to V6 hold at reset, every named update and so every step keeps them, and V5
follows from the others (R21). -/
namespace Sys2Proof.Machine

/-! ## Reading the buffer below `CNT` -/

theorem State.readByte_of_cnt_zero {s : State} (h : s.cnt = 0) (a : Nat) : s.readByte a = none :=
  State.readByte_of_ge (h ▸ Nat.zero_le a)

theorem State.result_of_not_complete {s : State} (h : s.state ≠ .complete) : s.result = none := by
  unfold State.result
  split <;> simp_all

/-- Truncation to `total` bytes hides the bytes from `total` on, and no other. -/
theorem State.readByte_completeRun {s : State} {total : Nat} (h : total ≤ s.cnt) (a : Nat) :
    (s.completeRun total).readByte a = if a < total then s.readByte a else none := by
  split
  · next ha => rw [State.readByte_of_lt ha, State.readByte_of_lt (Nat.lt_of_lt_of_le ha h), State.completeRun_rxbuf]
  · next ha => exact State.readByte_of_ge (Nat.le_of_not_lt ha)

theorem State.preLen_le_of_bufferTotal {s : State} {total : Nat} (h : s.bufferTotal = some total) :
    Config.preLen ≤ total := by
  obtain ⟨_, _, -, -, rfl⟩ := State.bufferTotal_eq_some h
  exact Nat.le_add_right _ _

/-- The length field lies below every total, so truncation to the total leaves the total readable. -/
theorem State.bufferTotal_completeRun {s : State} {total : Nat} (h : s.bufferTotal = some total) (hle : total ≤ s.cnt) :
    (s.completeRun total).bufferTotal = some total := by
  have h5 : 5 ≤ total := State.preLen_le_of_bufferTotal h
  rw [← h]
  apply State.bufferTotal_congr
  · rw [State.readByte_completeRun hle, if_pos (by omega)]
  · rw [State.readByte_completeRun hle, if_pos (by omega)]

/-- With every byte below `CNT` holding a value, `RXBUF[0:CNT]` is a list of bytes, and each of them is the one a rule
reads. -/
theorem BufferValid.exists_received {s : State} (h : BufferValid s) :
    ∃ f, s.received = some f ∧ f.length = s.cnt ∧ ∀ i, i < s.cnt → f[i]? = s.readByte i := by
  obtain ⟨-, hvalid⟩ := h
  obtain ⟨f, hf⟩ := Option.isSome_iff_exists.mp
    (Memory.loadList_isSome s.rxbuf 0 s.cnt fun i hi => by rw [Nat.zero_add]; exact hvalid i hi)
  obtain ⟨hlen, hload⟩ := (Memory.loadList_eq_some_iff _ _ _ _).mp hf
  refine ⟨f, received_of_loadList hf, hlen, fun i hi => ?_⟩
  have hi' : i < f.length := hlen ▸ hi
  rw [State.readByte_of_lt hi, List.getElem?_eq_getElem hi', ← hload i hi', Nat.zero_add]

/-! ## V5: the parse of a frame that is as long as it declares -/

/-- Such a frame can fail only by a declared length below 5, which is a total below ten bytes (R97, R98). -/
theorem parseFrame_isOk_iff {b : List Byte} {lo hi : Byte} (h3 : b[3]? = some lo) (h4 : b[4]? = some hi)
    (hl : b.length = 5 + (u16le lo hi).toNat) : (parseFrame b).isOk = true ↔ 10 ≤ b.length := by
  by_cases h9 : b.length < 9
  · rw [parseFrame_short h9]
    exact ⟨nofun, fun h => by omega⟩
  · obtain ⟨h, rest, rfl⟩ := exists_header_of_length (Nat.le_of_not_lt h9)
    obtain rfl : h.lenLo = lo := Option.some.inj h3
    obtain rfl : h.lenHi = hi := Option.some.inj h4
    change (h.bytes ++ rest).length = 5 + (headerLength h).toNat at hl
    rw [parseFrame_header]
    rcases parseWithHeader_cases h (h.bytes ++ rest) with ⟨hlt, he⟩ | ⟨-, hshort, -⟩ | ⟨hge, -, _, -, he⟩
    · rw [he]
      exact ⟨nofun, fun h => by omega⟩
    · omega
    · rw [he]
      exact ⟨fun _ => by omega, fun _ => rfl⟩

/-- V5 follows from V4 and the buffer's validity. -/
theorem Inv.v5 {s : State} (h : Inv s) : V5 s := by
  intro hs
  obtain ⟨h5, -, htotal⟩ := h.v4 hs
  obtain ⟨f, hf, hlen, hbytes⟩ := h.buffer.exists_received
  obtain ⟨lo, hi, h3, h4, hcnt⟩ := State.bufferTotal_eq_some htotal
  refine ⟨parseFrame f, result_of_received hs hf, ?_⟩
  change 5 ≤ s.cnt at h5
  rw [← hlen]
  exact parseFrame_isOk_iff ((hbytes 3 (by omega)).trans h3) ((hbytes 4 (by omega)).trans h4) (hlen.trans hcnt)

/-- Settles O6: the received bytes are exactly the declared span, so only a declared length below 5 makes their parse fail. -/
theorem completeResultIsOkFromTenBytes : Obligations.CompleteResultIsOkFromTenBytes := fun _ h => h.v5

/-! ## The updates that keep the invariants -/

/-- The invariants speak of `STATE`, `RXBUF`, `CNT` and `TIMER` alone. -/
theorem Inv.of_same_run {s t : State} (h : Inv s) (hstate : t.state = s.state) (hbuf : t.rxbuf = s.rxbuf)
    (hcnt : t.cnt = s.cnt) (htimer : t.timer = s.timer) : Inv t := by
  cases s
  cases t
  cases hstate
  cases hbuf
  cases hcnt
  cases htimer
  exact ⟨h.buffer, h.v1, h.v2, h.v3, h.v4, h.v6⟩

/-- The two ports of the model's own, the inbox and the reply, are none of them. -/
theorem Inv.setPorts {s : State} (h : Inv s) (cs : List Cycle) (r : Option Reply) :
    Inv { s with inbox := cs, reply := r } :=
  h.of_same_run rfl rfl rfl rfl

theorem V6.timer_lt {deadline : Nat} {s : State} (h : V6 deadline s) (hs : s.state ≠ .timedOut) : s.timer < deadline :=
  Nat.lt_of_le_of_ne h.1 (mt h.2 hs)

theorem V6.of_timer_lt {deadline : Nat} {s : State} (h : s.timer < deadline) : V6 deadline s :=
  ⟨Nat.le_of_lt h, fun he => absurd he (Nat.ne_of_lt h)⟩

theorem V6.of_timer_zero {s : State} (h : s.timer = 0) : V6 Config.deadlineTicks s :=
  .of_timer_lt (h ▸ Nat.succ_pos _)

/-- With nothing received and no frame claimed, the canonical form and the timer's range are all there is to show. -/
theorem Inv.of_cnt_zero {t : State} (hwf : t.rxbuf.wf) (hcnt : t.cnt = 0) (hs : t.state ≠ .complete)
    (h6 : V6 Config.deadlineTicks t) : Inv t where
  buffer := ⟨hwf, fun a ha => absurd ha (by omega)⟩
  v1 := (Nat.le_of_eq hcnt).trans (Nat.zero_le _)
  v2 _ := hcnt
  v3 ha := ⟨h6.timer_lt (by simp [ha]), .inl (hcnt ▸ by decide)⟩
  v4 hc := absurd hc hs
  v6 := h6

/-- Between START and the end of a run: a valid buffer of at most 256 bytes, time left, and a frame not whole. -/
theorem Inv.of_accumulating {t : State} (hs : t.state = .accumulating) (hbuf : BufferValid t) (h1 : V1 t)
    (h3 : V3 Config.deadlineTicks t) : Inv t where
  buffer := hbuf
  v1 := h1
  v2 h := by simp [hs] at h
  v3 := h3
  v4 h := by simp [hs] at h
  v6 := .of_timer_lt (h3 hs).1

/-- Completing with the declared total. -/
theorem Inv.completeRun {s : State} {total : Nat} (hbuf : BufferValid s) (h1 : V1 s)
    (htimer : s.timer < Config.deadlineTicks) (htotal : s.bufferTotal = some total) (hle : total ≤ s.cnt) :
    Inv (s.completeRun total) where
  buffer := ⟨hbuf.1, fun a ha => hbuf.2 a (Nat.lt_of_lt_of_le ha hle)⟩
  v1 := Nat.le_trans hle h1
  v2 h := by simp at h
  v3 h := by simp at h
  v4 _ := ⟨State.preLen_le_of_bufferTotal htotal, Nat.le_trans hle h1, State.bufferTotal_completeRun htotal hle⟩
  v6 := .of_timer_lt htimer

theorem Inv.toReset {s : State} (h : Inv s) : Inv s.toReset :=
  .of_cnt_zero h.buffer.1 rfl nofun (.of_timer_zero rfl)

theorem Inv.beginRun {s : State} (h : Inv s) : Inv s.beginRun :=
  .of_cnt_zero h.buffer.1 rfl nofun (.of_timer_zero rfl)

/-- RX_DATA keeps the invariants: the appended bytes hold values, and the length test decides between V3 and V4. -/
theorem Inv.rxDataOp {beatMax : Nat} {bytes : List Byte} {s t : State} (h : Inv s)
    (he : rxDataOp beatMax bytes s = .next t) : Inv t := by
  rcases rxDataOp_next he with ⟨-, rfl⟩ | ⟨hs, -, hfit, hcases⟩
  · exact h
  obtain ⟨hwf, hvalid⟩ := h.buffer
  have hbuf : BufferValid (s.appended bytes) := ⟨Memory.storeList_wf bytes hwf hfit, appended_valid hvalid bytes⟩
  have htimer : s.timer < Config.deadlineTicks := (h.v3 hs).1
  rcases hcases with ⟨rfl, hpartial⟩ | ⟨total, -, htotal, hle, rfl⟩
  · refine .of_accumulating hs hbuf hfit fun _ => ⟨htimer, ?_⟩
    rcases hpartial with h9 | ⟨total, htotal, hlt⟩
    · exact .inl h9
    · exact .inr fun T hT => Option.some.inj (htotal.symm.trans hT) ▸ hlt
  · exact .completeRun hbuf hfit htimer htotal hle

/-- TICK keeps the invariants: before the deadline one tick of the time left goes by, at it the run ends. -/
theorem Inv.tickOp {s : State} (h : Inv s) : Inv (tickOp Config.deadlineTicks s) := by
  by_cases hs : s.state = .accumulating
  · obtain ⟨htimer, hpartial⟩ := h.v3 hs
    rw [tickOp_inside hs]
    split
    · next hlast => exact .of_cnt_zero h.buffer.1 rfl nofun ⟨Nat.le_of_eq hlast, fun _ => rfl⟩
    · next hlast => exact .of_accumulating hs h.buffer h.v1 fun _ => ⟨Nat.lt_of_le_of_ne htimer hlast, hpartial⟩
  · rw [tickOp_outside hs]
    exact h

/-- Every instruction keeps the invariants. -/
theorem Inv.exec {i : Instr} {s t : State} (h : Inv s) (he : exec i s = .next t) : Inv t := by
  rcases exec_next_cases he with ⟨-, rfl⟩ | ⟨-, ⟨-, rfl⟩ | ⟨-, rfl⟩⟩ | ⟨bytes, -, hrx⟩ | ⟨-, rfl⟩ |
    ⟨-, ⟨hs, rfl⟩ | ⟨-, rfl⟩⟩ | ⟨-, rfl⟩ | ⟨-, rfl⟩ | ⟨b, -, rfl⟩ | ⟨-, -, -, -, r, rfl⟩
  · exact h.toReset
  · exact h
  · exact h.beginRun
  · exact h.rxDataOp hrx
  · exact h
  · exact .of_cnt_zero h.buffer.1 rfl nofun (.of_timer_lt (h.v3 hs).1)
  · exact h
  · exact h.tickOp
  · exact h.of_same_run rfl rfl rfl rfl
  · exact h.of_same_run rfl rfl rfl rfl
  · exact h.of_same_run rfl rfl rfl rfl

/-! ## Reset, a step, a run -/

theorem Inv.reset : Inv State.reset :=
  .of_cnt_zero ⟨.nil, nofun⟩ rfl nofun (.of_timer_zero rfl)

/-- Settles O3: nothing is received, and the timer stands at 0. -/
theorem resetMeetsTheInvariants : Obligations.ResetMeetsTheInvariants := ⟨.reset, Inv.reset.v5⟩

/-- Taking the next request changes the inbox alone, whether or not there is one. -/
theorem fetch_changes_inbox (s : State) :
    ∃ cs, fetch s = .idle { s with inbox := cs } ∨ ∃ r, fetch s = .request r { s with inbox := cs } := by
  cases hin : s.inbox with
  | nil => exact ⟨[], .inl (hin ▸ fetchWith_nil _ hin)⟩
  | cons c cs =>
    cases hc : serialise Config.sameCycleOrder c with
    | nil => exact ⟨cs, .inl (fetchWith_cons_nil _ hin hc)⟩
    | cons r rs => exact ⟨_, .inr ⟨r, fetchWith_cons _ hin hc⟩⟩

/-- Everything a step can do that is not a fault or a refusal: something in the inbox passes, or an instruction runs. -/
theorem step_next_cases {s t : State} (h : step s = .next t) :
    ∃ cs, t = { s with inbox := cs } ∨ ∃ i, exec i { s with inbox := cs, reply := none } = .next t := by
  obtain ⟨cs, hf | ⟨r, hf⟩⟩ := fetch_changes_inbox s
  · rw [step_of_idle hf] at h
    exact ⟨cs, .inl (Host.Outcome.next.inj h).symm⟩
  · cases hd : decode r with
    | instr i => exact ⟨cs, .inr ⟨i, step_of_instr hf hd ▸ h⟩⟩
    | noEvent =>
      rw [step_of_noEvent hf hd] at h
      exact ⟨cs, .inl (Host.Outcome.next.inj h).symm⟩
    | rejected why =>
      rw [step_of_rejected hf hd] at h
      cases h

theorem Inv.step {s t : State} (h : Inv s) (he : step s = .next t) : Inv t := by
  obtain ⟨cs, rfl | ⟨i, hi⟩⟩ := step_next_cases he
  · exact h.setPorts cs s.reply
  · exact (h.setPorts cs none).exec hi

/-- Settles O4: a step is at most one instruction, each instruction keeps the invariants, and V5 follows from them. -/
theorem everyStepKeepsTheInvariants : Obligations.EveryStepKeepsTheInvariants :=
  fun _ _ h he => ⟨h.step he, (h.step he).v5⟩

/-- Settles O5, by induction on the number of steps. -/
theorem everyReachableStateMeetsTheInvariants : Obligations.EveryReachableStateMeetsTheInvariants := by
  intro k events t ht
  have h : Inv t :=
    run_keeps Sys2Proof.core Inv (fun _ _ => Inv.step) k _ t (Inv.reset.setPorts events none) ht
  exact ⟨h.v1, h.v2, h.v3, h.v4, h.v5, h.v6⟩

end Sys2Proof.Machine
end

section
/-! SUPPORT. O1, O50: what reset leaves, and RESULT (R22, R25). -/
namespace Sys2Proof.Machine

/-- Settles O1: `CNT` is 0, so no index of the buffer can be read. -/
theorem resetStateIsIdleAndEmpty : Obligations.ResetStateIsIdleAndEmpty :=
  ⟨rfl, rfl, rfl, rfl, State.result_of_not_complete nofun, State.readByte_of_cnt_zero rfl⟩

/-- Settles O50, by the two sides of `State.result`. -/
theorem resultIsTheParseInComplete : Obligations.ResultIsTheParseInComplete :=
  fun _ => ⟨State.result_of_not_complete, fun hs _ hf => result_of_received hs hf⟩

end Sys2Proof.Machine
end

section
/-! SUPPORT. O44, O46, O47, O48: which instructions write STATE, RXBUF, ACC and TIMER. -/
namespace Sys2Proof.Machine

/-- What an instruction `i` that takes `s` to `t` can have written of STATE, RXBUF, TIMER and ACC. -/
inductive WritesOf (s t : State) : Instr → Prop where
  /-- The run is left as it is; only the streaming port may have written `ACC` (R82, R83, R107, R113). -/
  | noneOfRun {i : Instr} (hstate : t.state = s.state) (hbuf : t.rxbuf = s.rxbuf) (htimer : t.timer = s.timer)
      (hacc : t.acc = s.acc ∨ i = .csClear ∨ ∃ b, i = .csAdd b) : WritesOf s t i
  /-- RESET (R175). -/
  | reset (ht : t = s.toReset) : WritesOf s t .reset
  /-- An accepted START (R114). -/
  | start (hs : s.state ≠ .accumulating) (ht : t = s.beginRun) : WritesOf s t .start
  /-- A beat of the run (R115). -/
  | beat (bytes : List Byte) (hs : s.state = .accumulating) (htimer : t.timer = s.timer) (hacc : t.acc = s.acc)
      (hstate : t.state = .accumulating ∨ t.state = .complete) : WritesOf s t (.rxData bytes)
  /-- A transport error of the run (R117). -/
  | error (hs : s.state = .accumulating) (ht : t = s.endRun .transportError) : WritesOf s t .rxError
  /-- A tick of the run (R119). -/
  | tick (hs : s.state = .accumulating) (hbuf : t.rxbuf = s.rxbuf) (htimer : t.timer = s.timer + 1)
      (hacc : t.acc = s.acc) (hstate : t.state = .accumulating ∨ t.state = .timedOut) : WritesOf s t .tick

/-- An instruction that leaves the state as it was writes nothing. -/
theorem WritesOf.refl (s : State) (i : Instr) : WritesOf s s i := .noneOfRun rfl rfl rfl (.inl rfl)

theorem writesOf_rxDataOp {beatMax : Nat} {bytes : List Byte} {s t : State} (h : rxDataOp beatMax bytes s = .next t) :
    WritesOf s t (.rxData bytes) := by
  rcases rxDataOp_next h with ⟨-, rfl⟩ | ⟨hs, -, -, ⟨rfl, -⟩ | ⟨total, -, -, -, rfl⟩⟩
  · exact .refl t _
  · exact .beat bytes hs rfl rfl (.inl hs)
  · exact .beat bytes hs rfl rfl (.inr rfl)

theorem writesOf_tickOp (deadline : Nat) (s : State) : WritesOf s (tickOp deadline s) .tick := by
  by_cases hs : s.state = .accumulating
  · rw [tickOp_inside hs]
    split
    · exact .tick hs rfl rfl rfl (.inr rfl)
    · exact .tick hs rfl rfl rfl (.inl hs)
  · rw [tickOp_outside hs]
    exact .refl s _

theorem writesOf_exec {i : Instr} {s t : State} (h : exec i s = .next t) : WritesOf s t i := by
  rcases exec_next_cases h with ⟨rfl, rfl⟩ | ⟨rfl, ⟨-, rfl⟩ | ⟨hs, rfl⟩⟩ | ⟨bytes, rfl, hrx⟩ | ⟨-, rfl⟩ |
    ⟨rfl, ⟨hs, rfl⟩ | ⟨-, rfl⟩⟩ | ⟨rfl, rfl⟩ | ⟨rfl, rfl⟩ | ⟨b, rfl, rfl⟩ | ⟨-, -, -, -, r, rfl⟩
  · exact .reset rfl
  · exact .refl t _
  · exact .start hs rfl
  · exact writesOf_rxDataOp hrx
  · exact .refl t _
  · exact .error hs rfl
  · exact .refl t _
  · exact writesOf_tickOp _ s
  · exact .noneOfRun rfl rfl rfl (.inr (.inl rfl))
  · exact .noneOfRun rfl rfl rfl (.inr (.inr ⟨b, rfl⟩))
  · exact .noneOfRun rfl rfl rfl (.inl rfl)

/-- Settles O44: of what an instruction can write, the cases that leave `Accumulating`. -/
theorem onlyResetCancelsARun : Obligations.OnlyResetCancelsARun := by
  intro i s t hs he hleft
  cases writesOf_exec he with
  | noneOfRun hstate => exact absurd (hstate.trans hs) hleft
  | reset ht => exact .inl ⟨rfl, ht ▸ rfl⟩
  | start hns => exact absurd hs hns
  | beat bytes _ _ _ hstate => exact .inr (.inl ⟨bytes, rfl, hstate.resolve_left hleft⟩)
  | error _ ht => exact .inr (.inr (.inl ⟨rfl, ht ▸ rfl⟩))
  | tick _ _ _ _ hstate => exact .inr (.inr (.inr ⟨rfl, hstate.resolve_left hleft⟩))

/-- Settles O46: every case but the beat of a run leaves RXBUF. -/
theorem onlyRxDataWritesTheBuffer : Obligations.OnlyRxDataWritesTheBuffer := by
  intro i s t he hne
  cases writesOf_exec he with
  | noneOfRun _ hbuf => exact absurd hbuf hne
  | reset ht => exact absurd (ht ▸ rfl) hne
  | start _ ht => exact absurd (ht ▸ rfl) hne
  | beat bytes hs => exact ⟨⟨bytes, rfl⟩, hs⟩
  | error _ ht => exact absurd (ht ▸ rfl) hne
  | tick _ hbuf => exact absurd hbuf hne

/-- Settles O47: the reassembler's events leave `ACC`. -/
theorem onlyThePortAndResetWriteAcc : Obligations.OnlyThePortAndResetWriteAcc := by
  intro i s t he hne
  cases writesOf_exec he with
  | noneOfRun _ _ _ hacc => exact (hacc.resolve_left hne).imp_right .inl
  | reset => exact .inr (.inr rfl)
  | start _ ht => exact absurd (ht ▸ rfl) hne
  | beat _ _ _ hacc => exact absurd hacc hne
  | error _ ht => exact absurd (ht ▸ rfl) hne
  | tick _ _ _ hacc => exact absurd hacc hne

/-- Settles O48: a beat and an error leave `TIMER`, and START and RESET write 0. -/
theorem timerMovesOnlyByTicks : Obligations.TimerMovesOnlyByTicks := by
  intro i s t he hne
  cases writesOf_exec he with
  | noneOfRun _ _ htimer => exact absurd htimer hne
  | reset ht => exact .inr (.inr ⟨rfl, ht ▸ rfl⟩)
  | start hs ht => exact .inr (.inl ⟨rfl, hs, ht ▸ rfl⟩)
  | beat _ _ htimer => exact absurd htimer hne
  | error _ ht => exact absurd (ht ▸ rfl) hne
  | tick hs _ htimer => exact .inl ⟨rfl, hs, htimer⟩

end Sys2Proof.Machine
end

section
/-! SUPPORT. O49: two states a host cannot tell apart stay so under every instruction (R12, D28, U13). -/
namespace Sys2Proof.Machine

/-- Below a common `CNT`, the same byte read is the same byte stored. -/
theorem State.load_eq_of_readByte_eq {s u : State} (hc : s.cnt = u.cnt) {a : Nat} (ha : a < s.cnt)
    (h : s.readByte a = u.readByte a) : s.rxbuf.load a = u.rxbuf.load a := by
  rwa [State.readByte_of_lt ha, State.readByte_of_lt (hc ▸ ha)] at h

/-- RXBUF[0:CNT] is the same for both. -/
theorem SameToHost.received_eq {s u : State} (h : SameToHost s u) : s.received = u.received := by
  obtain ⟨-, hc, -, -, hb⟩ := h
  unfold State.received State.memRead
  rw [← hc, if_pos (by omega), if_pos (by omega)]
  refine Memory.loadList_congr fun i hi => ?_
  rw [Nat.zero_add]
  exact State.load_eq_of_readByte_eq hc hi (hb i)

theorem SameToHost.result_eq {s u : State} (h : SameToHost s u) : s.result = u.result := by
  have ⟨hstate, _⟩ := h
  unfold State.result
  rw [h.received_eq, hstate]

/-! ## The updates -/

/-- Two states with nothing received agree as soon as their scalar registers do. -/
theorem SameToHost.of_cnt_zero {s u : State} (hs : s.cnt = 0) (hu : u.cnt = 0) (hstate : s.state = u.state)
    (htimer : s.timer = u.timer) (hacc : s.acc = u.acc) : SameToHost s u :=
  ⟨hstate, hs.trans hu.symm, htimer, hacc, fun a => by
    rw [State.readByte_of_cnt_zero hs, State.readByte_of_cnt_zero hu]⟩

theorem SameToHost.beginRun {s u : State} (h : SameToHost s u) : SameToHost s.beginRun u.beginRun := by
  obtain ⟨-, -, -, hacc, -⟩ := h
  exact .of_cnt_zero rfl rfl rfl rfl hacc

theorem SameToHost.endRun {s u : State} (h : SameToHost s u) (into : RxState) :
    SameToHost (s.endRun into) (u.endRun into) := by
  obtain ⟨-, -, htimer, hacc, -⟩ := h
  exact .of_cnt_zero rfl rfl rfl htimer hacc

theorem SameToHost.setTimer {s u : State} (h : SameToHost s u) (n : Nat) : SameToHost (s.setTimer n) (u.setTimer n) := by
  obtain ⟨hstate, hc, -, hacc, hb⟩ := h
  exact ⟨hstate, hc, rfl, hacc, hb⟩

theorem SameToHost.setAcc {s u : State} (h : SameToHost s u) (b : Byte) : SameToHost (s.setAcc b) (u.setAcc b) := by
  obtain ⟨hstate, hc, htimer, -, hb⟩ := h
  exact ⟨hstate, hc, htimer, rfl, hb⟩

theorem SameToHost.completeRun {s u : State} (h : SameToHost s u) {total : Nat} (hle : total ≤ s.cnt) :
    SameToHost (s.completeRun total) (u.completeRun total) := by
  obtain ⟨-, hc, htimer, hacc, hb⟩ := h
  exact ⟨rfl, rfl, htimer, hacc, fun a => by
    rw [State.readByte_completeRun hle, State.readByte_completeRun (hc ▸ hle), hb a]⟩

/-- The bytes of a beat take the place of what stood above `CNT`. -/
theorem SameToHost.appended {s u : State} (h : SameToHost s u) (bytes : List Byte) :
    SameToHost (s.appended bytes) (u.appended bytes) := by
  obtain ⟨hstate, hc, htimer, hacc, hb⟩ := h
  have hcnt : (s.appended bytes).cnt = (u.appended bytes).cnt := congrArg (· + bytes.length) hc
  refine ⟨hstate, hcnt, htimer, hacc, fun a => ?_⟩
  by_cases ha : a < (s.appended bytes).cnt
  · rw [State.readByte_of_lt ha, State.readByte_of_lt (hcnt ▸ ha), State.appended_rxbuf, State.appended_rxbuf, ← hc]
    rw [State.appended_cnt] at ha
    by_cases hlt : a < s.cnt
    · rw [Memory.load_storeList_outside _ _ (.inl hlt), Memory.load_storeList_outside _ _ (.inl hlt)]
      exact State.load_eq_of_readByte_eq hc hlt (hb a)
    · obtain ⟨i, rfl⟩ := Nat.exists_eq_add_of_le (Nat.le_of_not_lt hlt)
      rw [Memory.load_storeList_inside _ _ _ i (by omega), Memory.load_storeList_inside _ _ _ i (by omega)]
  · rw [State.readByte_of_ge (Nat.le_of_not_lt ha), State.readByte_of_ge (hcnt ▸ Nat.le_of_not_lt ha)]

/-! ## The answers -/

/-- The length test reads bytes 3 and 4 below `CNT`, and so answers alike. -/
theorem SameToHost.lengthTest {s u : State} (h : SameToHost s u) (hr : s.reply = u.reply) :
    SameAnswer (lengthTest s) (lengthTest u) := by
  have ⟨_, hc, _, _, hb⟩ := h
  have htotal : s.bufferTotal = u.bufferTotal := State.bufferTotal_congr (hb 3) (hb 4)
  unfold Machine.lengthTest
  rw [← htotal, ← hc]
  split
  · split
    · split
      · next hle => exact ⟨h.completeRun hle, hr⟩
      · exact ⟨h, hr⟩
    · rfl
  · exact ⟨h, hr⟩

theorem SameToHost.takeBeat {s u : State} (h : SameToHost s u) (hr : s.reply = u.reply) (bytes : List Byte) :
    SameAnswer (takeBeat bytes s) (takeBeat bytes u) := by
  have ⟨_, hc, _⟩ := h
  rw [takeBeat_eq, takeBeat_eq, ← hc]
  split
  · exact (h.appended bytes).lengthTest hr
  · rfl

theorem SameToHost.rxDataOp {s u : State} (h : SameToHost s u) (hr : s.reply = u.reply) (beatMax : Nat)
    (bytes : List Byte) : SameAnswer (rxDataOp beatMax bytes s) (rxDataOp beatMax bytes u) := by
  have ⟨hstate, hc, _⟩ := h
  by_cases hs : s.state = .accumulating
  · have hbound : s.beatBound beatMax = u.beatBound beatMax := by
      simp only [State.beatBound, State.offeredSpace, hc]
    rw [rxDataOp_inside bytes hs, rxDataOp_inside bytes (hstate ▸ hs), ← hbound]
    split
    · exact h.takeBeat hr bytes
    · rfl
  · rw [rxDataOp_outside bytes hs, rxDataOp_outside bytes (hstate ▸ hs)]
    exact ⟨h, hr⟩

theorem SameToHost.tickOp {s u : State} (h : SameToHost s u) (hr : s.reply = u.reply) (deadline : Nat) :
    SameAnswer (.next (tickOp deadline s)) (.next (tickOp deadline u)) := by
  have ⟨hstate, _, htimer, _⟩ := h
  by_cases hs : s.state = .accumulating
  · rw [tickOp_inside hs, tickOp_inside (hstate ▸ hs), ← htimer]
    split
    · exact ⟨(h.setTimer _).endRun _, hr⟩
    · exact ⟨h.setTimer _, hr⟩
  · rw [tickOp_outside hs, tickOp_outside (hstate ▸ hs)]
    exact ⟨h, hr⟩

/-- Every instruction answers two states a host cannot tell apart alike. -/
theorem SameToHost.exec {s u : State} (h : SameToHost s u) (hr : s.reply = u.reply) (i : Instr) :
    SameAnswer (exec i s) (exec i u) := by
  have ⟨hstate, _, _, hacc, _⟩ := h
  cases i with
  | reset => exact ⟨.of_cnt_zero rfl rfl rfl rfl rfl, hr⟩
  | start =>
    by_cases hs : s.state = .accumulating
    · rw [Machine.exec, Machine.exec, execStart_inside hs, execStart_inside (hstate ▸ hs)]
      exact ⟨h, hr⟩
    · rw [Machine.exec, Machine.exec, execStart_outside hs, execStart_outside (hstate ▸ hs)]
      exact ⟨h.beginRun, hr⟩
  | rxData bytes => exact h.rxDataOp hr _ bytes
  | rxWouldBlock => exact ⟨h, hr⟩
  | rxError =>
    by_cases hs : s.state = .accumulating
    · rw [Machine.exec, Machine.exec, execRxError_inside hs, execRxError_inside (hstate ▸ hs)]
      exact ⟨h.endRun _, hr⟩
    · rw [Machine.exec, Machine.exec, execRxError_outside hs, execRxError_outside (hstate ▸ hs)]
      exact ⟨h, hr⟩
  | tick => exact h.tickOp hr _
  | csClear => exact ⟨h.setAcc _, hr⟩
  | csAdd b =>
    rw [Machine.exec, Machine.exec, execCsAdd, execCsAdd, ← hacc]
    exact ⟨h.setAcc _, hr⟩
  | verify bytes =>
    rw [Machine.exec, Machine.exec, execVerify, execVerify]
    split
    · exact ⟨h, rfl⟩
    · rfl
  | checksum _ | encode _ _ | decode _ | dirH2d _ _ | dirD2h _ _ | keyResponse _ _ | keyParamSet _ _ _ | keyParamRead _ _ _
  | keySetPattern _ _ | keyReadPattern _ _ | frame _ _ => exact ⟨h, rfl⟩

/-- Settles O49: every update keeps the agreement below `CNT`, and every branch is taken on what the two agree in. -/
theorem nothingDependsOnBytesAboveCnt : Obligations.NothingDependsOnBytesAboveCnt :=
  fun i _ _ h hr => ⟨h.exec hr i, h.result_eq⟩

end Sys2Proof.Machine
end

section
/-! SUPPORT. O41, O45: a beat leaves every byte below `CNT` (R39), so once a frame is whole the rest of the stream
changes nothing a host can see, and every cut of the stream ends where one append of all of it does (R35). -/
namespace Sys2Proof.Machine

/-! ## What an append leaves below `CNT` -/

theorem State.load_appended_of_lt {s : State} {a : Nat} (h : a < s.cnt) (bytes : List Byte) :
    (s.appended bytes).rxbuf.load a = s.rxbuf.load a :=
  Memory.load_storeList_outside _ _ (.inl h)

theorem State.readByte_appended_of_lt {s : State} {a : Nat} (h : a < s.cnt) (bytes : List Byte) :
    (s.appended bytes).readByte a = s.readByte a := by
  have hlt : a < (s.appended bytes).cnt := Nat.lt_add_right _ h
  rw [State.readByte_of_lt h, State.readByte_of_lt hlt, State.load_appended_of_lt h]

/-- A length field that is already there is not written again. -/
theorem State.bufferTotal_appended {s : State} (h : Config.hdrLen ≤ s.cnt) (bytes : List Byte) :
    (s.appended bytes).bufferTotal = s.bufferTotal := by
  change 9 ≤ s.cnt at h
  exact State.bufferTotal_congr (State.readByte_appended_of_lt (by omega) bytes)
    (State.readByte_appended_of_lt (by omega) bytes)

theorem load_of_rxDataOp_next {beatMax : Nat} {bytes : List Byte} {s t : State} (h : rxDataOp beatMax bytes s = .next t)
    {a : Nat} (ha : a < s.cnt) : t.rxbuf.load a = s.rxbuf.load a := by
  rcases rxDataOp_next h with ⟨-, rfl⟩ | ⟨-, -, -, ⟨rfl, -⟩ | ⟨total, -, -, -, rfl⟩⟩
  · rfl
  · exact State.load_appended_of_lt ha bytes
  · exact State.load_appended_of_lt ha bytes

/-- Settles O45: only RX_DATA writes the buffer at all (O46), and it writes from `CNT` on. -/
theorem bytesBelowCntAreNeverOverwritten : Obligations.BytesBelowCntAreNeverOverwritten := by
  intro i s t a he ha
  by_cases hbuf : t.rxbuf = s.rxbuf
  · rw [hbuf]
  · obtain ⟨⟨bytes, rfl⟩, -⟩ := onlyRxDataWritesTheBuffer i s t he hbuf
    exact load_of_rxDataOp_next he ha

/-! ## States a host cannot tell apart -/

theorem SameToHost.refl (s : State) : SameToHost s s := ⟨rfl, rfl, rfl, rfl, fun _ => rfl⟩

theorem SameToHost.symm {s t : State} (h : SameToHost s t) : SameToHost t s := by
  obtain ⟨hstate, hc, htimer, hacc, hb⟩ := h
  exact ⟨hstate.symm, hc.symm, htimer.symm, hacc.symm, fun a => (hb a).symm⟩

theorem SameToHost.trans {s t u : State} (h : SameToHost s t) (h' : SameToHost t u) : SameToHost s u := by
  obtain ⟨hstate, hc, htimer, hacc, hb⟩ := h
  obtain ⟨hstate', hc', htimer', hacc', hb'⟩ := h'
  exact ⟨hstate.trans hstate', hc.trans hc', htimer.trans htimer', hacc.trans hacc', fun a => (hb a).trans (hb' a)⟩

/-- Truncation to a total that was already received hides whatever was appended after it. -/
theorem SameToHost.completeRun_appended {s : State} {total : Nat} (hle : total ≤ s.cnt) (rest : List Byte) :
    SameToHost (s.completeRun total) ((s.appended rest).completeRun total) := by
  refine ⟨rfl, rfl, rfl, rfl, fun a => ?_⟩
  rw [State.readByte_completeRun hle, State.readByte_completeRun (Nat.le_add_right_of_le hle)]
  split
  · next ha => rw [State.readByte_appended_of_lt (Nat.lt_of_lt_of_le ha hle)]
  · rfl

/-! ## The length test along the stream -/

/-- V3: a run that goes on has not received its frame whole, so the length test finds nothing to do. -/
theorem Inv.lengthTest_eq {s : State} (h : Inv s) (hs : s.state = .accumulating) : lengthTest s = .next s := by
  obtain ⟨-, hpartial⟩ := h.v3 hs
  rcases lengthTest_cases s with ⟨-, he⟩ | ⟨h9, total, htotal, ⟨-, he⟩ | ⟨hle, -⟩⟩ | ⟨-, -, he⟩
  · exact he
  · exact he
  · have hlt : s.cnt < total := (hpartial.resolve_left (Nat.not_lt_of_le h9)) total htotal
    omega
  · exact absurd he (lengthTest_ne_fault h.buffer.2 _)

/-- Bytes after a whole frame leave its total as it is, and so the completion. -/
theorem lengthTest_appended_of_whole {s : State} {total : Nat} (h9 : Config.hdrLen ≤ s.cnt)
    (htotal : s.bufferTotal = some total) (hle : total ≤ s.cnt) (rest : List Byte) :
    lengthTest (s.appended rest) = .next ((s.appended rest).completeRun total) := by
  have h9' : Config.hdrLen ≤ (s.appended rest).cnt := Nat.le_add_right_of_le h9
  have hle' : total ≤ (s.appended rest).cnt := Nat.le_add_right_of_le hle
  unfold lengthTest
  rw [if_pos h9', State.bufferTotal_appended h9, htotal]
  exact if_pos hle'

/-- Where the bytes below `CNT` hold values, an accepted beat either leaves the run going on or ends it with the
declared total. -/
theorem Inv.exec_rxData {s : State} (h : Inv s) (hs : s.state = .accumulating) {bytes : List Byte}
    (hb : bytes.length ≤ Config.rxBeatMax) (hfit : s.cnt + bytes.length ≤ Config.maxFrame) :
    (Machine.exec (.rxData bytes) s = .next (s.appended bytes) ∧ Inv (s.appended bytes)) ∨
    ∃ total, Config.hdrLen ≤ (s.appended bytes).cnt ∧ (s.appended bytes).bufferTotal = some total ∧
      total ≤ (s.appended bytes).cnt ∧ Machine.exec (.rxData bytes) s = .next ((s.appended bytes).completeRun total) := by
  have hbound : bytes.length ≤ s.beatBound Config.rxBeatMax :=
    Nat.le_min.mpr ⟨hb, Nat.le_sub_of_add_le (by omega)⟩
  have hrx : Machine.exec (.rxData bytes) s = lengthTest (s.appended bytes) := rxDataOp_accepted hs h.v1 hbound
  rcases lengthTest_cases (s.appended bytes) with ⟨-, he⟩ | ⟨h9, total, htotal, ⟨-, he⟩ | ⟨hle, he⟩⟩ | ⟨-, -, he⟩
  · exact .inl ⟨hrx.trans he, h.exec (hrx.trans he)⟩
  · exact .inl ⟨hrx.trans he, h.exec (hrx.trans he)⟩
  · exact .inr ⟨total, h9, htotal, hle, hrx.trans he⟩
  · exact absurd he (lengthTest_ne_fault (appended_valid h.buffer.2 bytes) _)

/-! ## A list of beats -/

theorem execList_cons_of_next {i : Instr} {s t : State} (h : exec i s = .next t) (is : List Instr) :
    execList (i :: is) s = execList is t := by
  rw [execList, h]

/-- Beats presented outside `Accumulating` change nothing (R113). -/
theorem execList_rxData_outside {s : State} (hs : s.state ≠ .accumulating) (beats : List (List Byte)) :
    execList (beats.map .rxData) s = .next s := by
  induction beats with
  | nil => rfl
  | cons b beats ih =>
    have he : exec (.rxData b) s = .next s := rxDataOp_outside b hs
    rw [List.map_cons, execList_cons_of_next he, ih]

/-- Any cut of a stream that fits ends where a host cannot tell it from one append of the whole stream and one length
test. By induction on the beats: one that goes on hands the invariants to the next, and after one that completes the
others are ignored, as one append would put their bytes above the total. -/
theorem Inv.execList_rxData {s : State} (h : Inv s) (hs : s.state = .accumulating) (beats : List (List Byte))
    (hb : ∀ b ∈ beats, b.length ≤ Config.rxBeatMax) (hfit : s.cnt + beats.flatten.length ≤ Config.maxFrame) :
    ∃ t u, execList (beats.map .rxData) s = .next t ∧ lengthTest (s.appended beats.flatten) = .next u ∧
      SameToHost t u := by
  induction beats generalizing s with
  | nil => exact ⟨s, s, rfl, h.lengthTest_eq hs, .refl s⟩
  | cons b beats ih =>
    obtain ⟨hhead, htail⟩ := List.forall_mem_cons.mp hb
    rw [List.flatten_cons, List.length_append] at hfit
    rw [List.map_cons, List.flatten_cons, State.appended_append]
    rcases h.exec_rxData hs hhead (by omega) with ⟨he, hinv⟩ | ⟨total, h9, htotal, hle, he⟩
    · rw [execList_cons_of_next he]
      exact ih hinv hs htail (by rw [State.appended_cnt]; omega)
    · have hdone : ((s.appended b).completeRun total).state ≠ .accumulating := nofun
      rw [execList_cons_of_next he]
      exact ⟨_, _, execList_rxData_outside hdone beats, lengthTest_appended_of_whole h9 htotal hle _,
        .completeRun_appended hle _⟩

/-- Settles O41: both cuts end alike to one append of the stream they have in common. -/
theorem beatBoundariesDoNotMatter : Obligations.BeatBoundariesDoNotMatter := by
  intro s xs ys h hs hflat hlen hxs hys
  have hfit : s.cnt + xs.flatten.length ≤ Config.maxFrame := by
    have hcnt : s.cnt ≤ 256 := h.v1
    change s.cnt + xs.flatten.length ≤ 256
    omega
  obtain ⟨t, r, ht, hr, htr⟩ := h.execList_rxData hs xs hxs hfit
  obtain ⟨u, r', hu, hr', hur⟩ := h.execList_rxData hs ys hys (hflat ▸ hfit)
  obtain rfl : r = r' := Host.Outcome.next.inj (hr.symm.trans (hflat ▸ hr'))
  exact ⟨t, u, ht, hu, htr.trans hur.symm⟩

end Sys2Proof.Machine
end

section
/-! SUPPORT. O53, O54: the decoder and the encoder are inverse to each other (R67, R70). -/
namespace Sys2Proof.Machine

/-- Settles O53: the decoder reads back what the encoder writes, row by row. -/
theorem decodeOfEncodeIsTheInstruction : Obligations.DecodeOfEncodeIsTheInstruction := fun _ hi => decode_encode hi

/-! ## What the operands of an operation code decode to -/

theorem decodeBare_eq_instr {i j : Instr} {operands : List Byte} (h : decodeBare i operands = .instr j) :
    operands = [] ∧ j = i := by
  cases operands with
  | nil => cases h; exact ⟨rfl, rfl⟩
  | cons _ _ => cases h

theorem decodeCsAdd_eq_instr {i : Instr} {operands : List Byte} (h : decodeCsAdd operands = .instr i) :
    ∃ b, operands = [b] ∧ i = .csAdd b := by
  unfold decodeCsAdd at h
  split at h <;> cases h
  exact ⟨_, rfl, rfl⟩

theorem decodeEncode_eq_instr {i : Instr} {operands : List Byte} (h : decodeEncode operands = .instr i) :
    ∃ hi lo p, operands = hi :: lo :: p ∧ i = .encode (u16be hi lo) p := by
  unfold decodeEncode at h
  split at h <;> cases h
  exact ⟨_, _, _, rfl, rfl⟩

/-- What a request can decode to: a well-formed instruction, or one with an operand that the block itself refuses
(R81, R112). -/
def Decodable (i : Instr) : Prop := i.WellFormed ∨ i = .verify [] ∨ ∃ d, i = .rxData d ∧ 256 < d.length

theorem decodable_rxData (d : List Byte) : Decodable (.rxData d) := by
  by_cases hd : d.length ≤ 256
  · exact .inl (decide_eq_true hd)
  · exact .inr (.inr ⟨d, rfl, Nat.lt_of_not_le hd⟩)

theorem decodable_verify (b : List Byte) : Decodable (.verify b) := by
  cases b with
  | nil => exact .inr (.inl rfl)
  | cons _ _ => exact .inl rfl

/-- An operation's request comes back, code by code. -/
theorem encode_of_decodeOp {code : BitVec 4} {operands : List Byte} {i : Instr} (h : decodeOp code operands = .instr i) :
    encode i = .op code operands ∧ Decodable i := by
  have code_eq {n : Nat} (hn : code.toNat = n) : code = BitVec.ofNat 4 n := by
    rw [← hn, BitVec.ofNat_toNat, BitVec.setWidth_eq]
  unfold decodeOp at h
  split at h
  case h_1 hc | h_2 hc | h_4 hc | h_5 hc | h_6 hc | h_7 hc =>
    obtain ⟨rfl, rfl⟩ := decodeBare_eq_instr h
    exact ⟨by rw [code_eq hc]; rfl, .inl rfl⟩
  case h_3 hc =>
    cases h
    exact ⟨by rw [code_eq hc]; rfl, decodable_rxData operands⟩
  case h_8 hc =>
    obtain ⟨b, rfl, rfl⟩ := decodeCsAdd_eq_instr h
    exact ⟨by rw [code_eq hc]; rfl, .inl rfl⟩
  case h_9 hc | h_12 hc =>
    cases h
    exact ⟨by rw [code_eq hc]; rfl, .inl rfl⟩
  case h_10 hc =>
    cases h
    exact ⟨by rw [code_eq hc]; rfl, decodable_verify operands⟩
  case h_11 hc =>
    obtain ⟨hi, lo, p, rfl, rfl⟩ := decodeEncode_eq_instr h
    exact ⟨by rw [code_eq hc, encode, hi8_u16be, lo8_u16be], .inl rfl⟩
  case h_13 => cases h

/-! ## The constructor of a frame's class keeps the whole header -/

theorem decodeFrame_eq_instr {bytes : List Byte} {i : Instr} (h : decodeFrame bytes = .instr i) :
    ∃ (hd : Header) (rest : List Byte), bytes = hd.bytes ++ rest ∧ i = frameInstr (classify hd) hd rest := by
  unfold decodeFrame at h
  split at h <;> cases h
  exact ⟨_, _, rfl, rfl⟩

theorem Header.afterDir_header_of_dir {h : Header} {dir : Byte} (hdir : h.dir = dir) : h.afterDir.header dir = h :=
  hdir ▸ rfl

theorem Header.beforeKey_header_of_key {h : Header} {hi lo : Byte} (hhi : h.cmdHi = hi) (hlo : h.cmdLo = lo) :
    h.beforeKey.header hi lo = h :=
  hhi ▸ hlo ▸ rfl

/-- The row that the decoder picks is one that applies. -/
theorem rowApplies_classify (h : Header) : rowApplies (classify h) h = true := by
  unfold classify
  split_ifs
  case neg => exact (rowApplies_iff .frame h).mpr trivial
  all_goals assumption

/-- A row that applies fixes exactly the header bytes that its constructor leaves out. -/
theorem encode_frameInstr {row : FrameRow} {h : Header} (ha : rowApplies row h = true) (rest : List Byte) :
    encode (frameInstr row h rest) = .frame (h.bytes ++ rest) := by
  rw [rowApplies_iff] at ha
  have shown {g : Header} (hg : g = h) : Request.frame (g.bytes ++ rest) = .frame (h.bytes ++ rest) := hg ▸ rfl
  cases row with
  | dirH2d | dirD2h => exact shown (Header.afterDir_header_of_dir ha)
  | keyResponse | keySetPattern | keyReadPattern =>
    obtain ⟨hhi, hlo⟩ := ha
    exact shown (Header.beforeKey_header_of_key hhi hlo)
  | keyParamSet | keyParamRead =>
    obtain ⟨hhi, -⟩ := ha
    exact shown (Header.beforeKey_header_of_key hhi rfl)
  | frame => rfl

/-- The constructor of a header's class is well formed at that header. -/
theorem wellFormed_frameInstr (h : Header) (rest : List Byte) : (frameInstr (classify h) h rest).WellFormed := by
  have ha := rowApplies_classify h
  generalize hc : classify h = row at ha
  rw [rowApplies_iff] at ha
  have same {g : Header} (hg : g = h) : (classify g == row) = true := beq_iff_eq.mpr (hg ▸ hc)
  cases row with
  | dirH2d | dirD2h => exact same (Header.afterDir_header_of_dir ha)
  | keyResponse | keySetPattern | keyReadPattern => rfl
  | keyParamSet | keyParamRead =>
    obtain ⟨hhi, -⟩ := ha
    exact same (Header.beforeKey_header_of_key hhi rfl)
  | frame => exact same rfl

/-- Settles O54: by the form of the request, an operation code with its operands or a frame. -/
theorem encodeOfDecodeIsTheRequest : Obligations.EncodeOfDecodeIsTheRequest := by
  intro r i h
  cases r with
  | op code operands => exact encode_of_decodeOp h
  | frame bytes =>
    obtain ⟨hd, rest, rfl, rfl⟩ := decodeFrame_eq_instr h
    exact ⟨encode_frameInstr (rowApplies_classify hd) rest, .inl (wellFormed_frameInstr hd rest)⟩

end Sys2Proof.Machine
end

section
/-! SUPPORT. O26 to O29: which frame rows apply to a header, and that a frame shown is parsed with its header's key. -/
namespace Sys2Proof.Machine

/-! ## The rows by the key as a number -/

/-- The key determines its two bytes. -/
theorem headerKey_eq_u16be_iff (h : Header) (hi lo : Byte) :
    headerKey h = u16be hi lo ↔ h.cmdHi = hi ∧ h.cmdLo = lo := by
  constructor
  · intro hk
    have hhi := congrArg (fun k : Half => hi8 k.toNat) hk
    have hlo := congrArg (fun k : Half => lo8 k.toNat) hk
    simpa only [headerKey, hi8_u16be, lo8_u16be] using And.intro hhi hlo
  · rintro ⟨rfl, rfl⟩
    rfl

/-- A high key byte with a low byte of the parameter range is a range of keys (R65). -/
theorem inParamRange_iff_headerKey (h : Header) (hi : Byte) :
    h.cmdHi = hi ∧ inParamRange h.cmdLo = true ↔
      256 * hi.toNat + 0x61 ≤ (headerKey h).toNat ∧ (headerKey h).toNat ≤ 256 * hi.toNat + 0xAB := by
  have := byte_lt h.cmdLo
  rw [inParamRange_iff, headerKey, u16be_toNat, ← BitVec.toNat_inj]
  omega

/-- Settles O29: each row's mask and match read as a test of the direction byte or of the key. -/
theorem rowsFollowDirectionAndKey : Obligations.RowsFollowDirectionAndKey := by
  intro h
  simp only [mem_rowsOf, rowApplies_iff]
  exact ⟨trivial, trivial, (headerKey_eq_u16be_iff h 0xFF#8 0xFF#8).symm, inParamRange_iff_headerKey h 0x00#8,
    inParamRange_iff_headerKey h 0x80#8, (headerKey_eq_u16be_iff h 0x00#8 0x62#8).symm,
    (headerKey_eq_u16be_iff h 0x80#8 0x62#8).symm, trivial⟩

/-! ## The parse of a frame given by its header -/

/-- The packet of a frame that parses is made of the frame's own header. -/
theorem parseFrame_header_eq_ok {h : Header} {rest : List Byte} {p : DecodedPacket}
    (hp : parseFrame (h.bytes ++ rest) = .ok p) : ∃ chk, p = packetOf h (h.bytes ++ rest) chk := by
  rw [parseFrame_header] at hp
  rcases parseWithHeader_cases h (h.bytes ++ rest) with ⟨-, he⟩ | ⟨-, -, he⟩ | ⟨-, -, chk, -, he⟩ <;> rw [he] at hp <;> cases hp
  exact ⟨chk, rfl⟩

theorem commandKey_of_parseFrame {h : Header} {rest : List Byte} {p : DecodedPacket}
    (hp : parseFrame (h.bytes ++ rest) = .ok p) : p.commandKey = headerKey h := by
  obtain ⟨chk, rfl⟩ := parseFrame_header_eq_ok hp
  rfl

theorem commandKey_toNat_of_parseFrame {h : Header} {rest : List Byte} {p : DecodedPacket}
    (hp : parseFrame (h.bytes ++ rest) = .ok p) : p.commandKey.toNat = 256 * h.cmdHi.toNat + h.cmdLo.toNat := by
  rw [commandKey_of_parseFrame hp, headerKey, u16be_toNat]

/-- Settles O26: each row shows the frame with its key, which the row and the parse both read. -/
theorem keyRowsReportTheirKey : Obligations.KeyRowsReportTheirKey := by
  intro s h rest
  refine ⟨⟨_, showFrame_eq _ rest s, rfl, ?_, fun _ => commandKey_of_parseFrame⟩,
    ⟨_, showFrame_eq _ rest s, rfl, ?_, ?_, fun _ => commandKey_of_parseFrame⟩,
    ⟨_, showFrame_eq _ rest s, rfl, ?_, ?_, fun _ => commandKey_of_parseFrame⟩⟩
  all_goals
    rw [mem_rowsOf, rowApplies_iff]
    exact ⟨rfl, rfl⟩

/-- Settles O27: the high key byte is the row's, so the low byte alone decides the row and the key. -/
theorem parameterRowsReportTheirKey : Obligations.ParameterRowsReportTheirKey := by
  intro s h lo rest
  refine ⟨⟨_, showFrame_eq _ rest s, rfl, ?_, fun _ hp => (commandKey_toNat_of_parseFrame hp).trans (Nat.zero_add _)⟩,
    ⟨_, showFrame_eq _ rest s, rfl, ?_, fun _ hp => commandKey_toNat_of_parseFrame hp⟩⟩
  all_goals
    rw [mem_rowsOf, rowApplies_iff]
    exact (and_iff_right rfl).trans (inParamRange_iff lo)

/-- Settles O28: with a declared length of the rest and its four bytes of header, both length tests pass. -/
theorem frameRowParsesAnyHeader : Obligations.FrameRowParsesAnyHeader := by
  intro s h rest
  refine ⟨_, showFrame_eq h rest s, rfl, (mem_rowsOf .frame h).mpr ((rowApplies_iff .frame h).mpr trivial), ?_⟩
  intro hlen hrest
  have hdeclared : (headerLength h).toNat = rest.length + 4 := hlen
  have htotal : (h.bytes ++ rest).length = 9 + rest.length := List.length_append
  obtain ⟨chk, -, he⟩ := parseWithHeader_ok (h := h) (b := h.bytes ++ rest) (by omega) (by omega)
  exact ⟨_, he⟩

end Sys2Proof.Machine
end

section
/-! SUPPORT. O55, O57: the codes that are no event, and requests written out. -/
namespace Sys2Proof.Machine

/-- The codes outside R67's table decode to no event, whatever is beside them (U5). -/
theorem decode_reserved {code : BitVec 4} (h : code = 0x0#4 ∨ 0xD ≤ code.toNat) (operands : List Byte) :
    decode (.op code operands) = .noEvent := by
  have reserved : ∀ c : BitVec 4, c = 0x0#4 ∨ 0xD ≤ c.toNat → c = 0x0#4 ∨ c = 0xD#4 ∨ c = 0xE#4 ∨ c = 0xF#4 := by decide
  rcases reserved code h with rfl | rfl | rfl | rfl <;> rfl

/-- Settles O55: a reserved code is no event, so the step only takes it off the inbox. -/
theorem reservedCodesAreNoEvent : Obligations.ReservedCodesAreNoEvent := fun s _ operands h =>
  ⟨decode_reserved h operands,
    step_of_noEvent (fetchWith_present Config.sameCycleOrder s _) (decode_reserved h operands)⟩

/-- Settles O57: the operations by their codes, the two frames by the class of their header. -/
theorem writtenOutRequestsDecode : Obligations.WrittenOutRequestsDecode :=
  ⟨rfl, rfl, rfl, rfl, rfl,
    decode_frame_of_classify (classify_keySetPattern ⟨0xAA#8, 0#8, 0#8, 6#8, 0#8, 0#8, 0#8⟩) [3#8, 0xEB#8],
    decode_frame_of_classify (classify_keyResponse ⟨0xAB#8, 0#8, 0#8, 8#8, 0#8, 0#8, 0#8⟩) [0#8, 0x62#8, 0#8, 0xED#8]⟩

end Sys2Proof.Machine
end

section
/-! SUPPORT. O9 to O11, O13 to O15: the checksum unit's operations, its outputs, and the checksum law (R80 to R86). -/
namespace Sys2Proof.Machine

/-! ## The outputs of the streaming port as numbers -/

theorem State.csChk_toNat (s : State) : s.csChk.toNat = (256 - s.acc.toNat) % 256 := by
  rw [State.csChk, BitVec.toNat_ofNat]
  omega

theorem State.csZero_iff (s : State) : s.csZero = true ↔ s.acc = 0#8 := beq_iff_eq

theorem State.csZero_eq (s : State) : s.csZero = (s.acc.toNat == 0) := by
  rw [Bool.eq_iff_iff, State.csZero_iff, beq_iff_eq, ← BitVec.toNat_inj]
  rfl

/-- Settles O9. -/
theorem csClearZeroesTheAccumulator : Obligations.CsClearZeroesTheAccumulator := fun _ => rfl

/-- Settles O10: the byte arithmetic of `accAdd`. -/
theorem csAddAddsModulo256 : Obligations.CsAddAddsModulo256 :=
  fun s b => ⟨s.setAcc (accAdd s.acc b), rfl, rfl, accAdd_toNat s.acc b⟩

/-- Settles O11. -/
theorem streamingOutputsFollowTheAccumulator : Obligations.StreamingOutputsFollowTheAccumulator :=
  fun s => ⟨rfl, s.csChk_toNat, s.csZero_iff⟩

/-! ## CHECKSUM and VERIFY -/

/-- The trailer is the two's complement of the sum's low byte (R80). -/
theorem checksumOf_eq_neg (bs : List Byte) : checksumOf bs = -(BitVec.ofNat 8 (sumBytes bs)) := by
  rw [← BitVec.toNat_inj, checksumOf_toNat, BitVec.toNat_neg, BitVec.toNat_ofNat]

/-- The trailer depends on the bytes by their sum alone, and so not on their order. -/
theorem checksumOf_perm {b c : List Byte} (h : b.Perm c) : checksumOf b = checksumOf c := by
  rw [checksumOf, checksumOf, sumBytes_perm h]

/-- Settles O13: the formula and what follows from it. -/
theorem checksumReturnsTheNegatedSum : Obligations.ChecksumReturnsTheNegatedSum :=
  fun _ b _ => ⟨rfl, checksumOf_toNat b, rfl, checksumOf_eq_neg b, checksumOf_perm⟩

theorem exec_verify_append (s : State) (body : List Byte) (t : Byte) :
    exec (.verify (body ++ [t])) s = .next (s.answer (.bool (checksumOf body == t))) := by
  rw [exec, execVerify, verifyOf_append]

/-- Settles O14: one byte is a trailer after an empty body, whose checksum is 0. -/
theorem verifyComparesTheTrailer : Obligations.VerifyComparesTheTrailer := by
  intro s body t
  refine ⟨exec_verify_append s body t, ?_, rfl⟩
  rw [BEq.comm (a := t)]
  exact exec_verify_append s [] t

/-- A body with a trailer verifies exactly when the trailer is the body's checksum. -/
theorem verifyOf_append_eq_true_iff (body : List Byte) (t : Byte) :
    verifyOf (body ++ [t]) = some true ↔ checksumOf body = t := by
  rw [verifyOf_append, Option.some.injEq, beq_iff_eq]

/-- Settles O15: the verdict is the sum's, and the one trailer that verifies is the checksum. -/
theorem verifyHoldsExactlyWhenTheSumIsZero : Obligations.VerifyHoldsExactlyWhenTheSumIsZero := by
  constructor
  · intro b hb
    rw [verifyOf_of_ne_nil hb, Option.some.injEq, beq_iff_eq]
  · intro body
    exact ⟨checksumOf body, (verifyOf_append_eq_true_iff body _).mpr rfl,
      fun u hu => ((verifyOf_append_eq_true_iff body u).mp hu).symm⟩

end Sys2Proof.Machine
end

section
/-! SUPPORT. O8: a refusal is VERIFY's of nothing, or RX_DATA's of a beat over its bound in `Accumulating` (R81, R112). -/
namespace Sys2Proof.Machine

/-- The length test waits, completes or faults. -/
theorem lengthTest_ne_refused (s : State) (r : Refusal) : lengthTest s ≠ .refused r := by
  intro hr
  rcases lengthTest_cases s with ⟨-, he⟩ | ⟨-, _, -, ⟨-, he⟩ | ⟨-, he⟩⟩ | ⟨-, -, he⟩ <;> cases he.symm.trans hr

theorem takeBeat_ne_refused (bytes : List Byte) (s : State) (r : Refusal) : takeBeat bytes s ≠ .refused r := by
  rw [takeBeat_eq]
  split
  · exact lengthTest_ne_refused _ r
  · exact nofun

/-- RX_DATA refuses by the beat's bound alone, and only while it takes beats. -/
theorem rxDataOp_eq_refused {beatMax : Nat} {bytes : List Byte} {s : State} {r : Refusal}
    (h : rxDataOp beatMax bytes s = .refused r) :
    s.state = .accumulating ∧ s.beatBound beatMax < bytes.length ∧ r = .beatTooLarge := by
  by_cases hs : s.state = .accumulating
  · rw [rxDataOp_inside bytes hs] at h
    split at h
    · exact absurd h (takeBeat_ne_refused bytes s r)
    · next hb =>
      cases h
      exact ⟨hs, Nat.lt_of_not_le hb, rfl⟩
  · rw [rxDataOp_outside bytes hs] at h
    cases h

theorem execVerify_eq_refused {bytes : List Byte} {s : State} {r : Refusal} (h : execVerify bytes s = .refused r) :
    bytes = [] ∧ r = .verifyEmpty := by
  unfold execVerify at h
  split at h
  · cases h
  · next hnone =>
    cases h
    exact ⟨(verifyOf_eq_none_iff bytes).mp hnone, rfl⟩

/-- START goes on in every `STATE`. -/
theorem execStart_next (s : State) : ∃ t, execStart s = .next t := by
  by_cases hs : s.state = .accumulating
  · exact ⟨s, execStart_inside hs⟩
  · exact ⟨s.beginRun, execStart_outside hs⟩

/-- RX_ERROR goes on in every `STATE`. -/
theorem execRxError_next (s : State) : ∃ t, execRxError s = .next t := by
  by_cases hs : s.state = .accumulating
  · exact ⟨s.endRun .transportError, execRxError_inside hs⟩
  · exact ⟨s, execRxError_outside hs⟩

/-- Settles O8: every instruction but RX_DATA and VERIFY answers a next state. -/
theorem onlyTwoRefusals : Obligations.OnlyTwoRefusals := by
  intro s i r h
  cases i with
  | rxData bytes =>
    obtain ⟨hs, hb, hr⟩ := rxDataOp_eq_refused h
    exact .inr ⟨bytes, rfl, hs, hb, hr⟩
  | verify bytes =>
    obtain ⟨rfl, hr⟩ := execVerify_eq_refused h
    exact .inl ⟨rfl, hr⟩
  | start =>
    obtain ⟨t, ht⟩ := execStart_next s
    cases ht.symm.trans h
  | rxError =>
    obtain ⟨t, ht⟩ := execRxError_next s
    cases ht.symm.trans h
  | reset | rxWouldBlock | tick | csClear | csAdd _ | checksum _ | encode _ _ | decode _ | dirH2d _ _ | dirD2h _ _
  | keyResponse _ _ | keyParamSet _ _ _ | keyParamRead _ _ _ | keySetPattern _ _ | keyReadPattern _ _ | frame _ _ => cases h

end Sys2Proof.Machine
end

section
/-! SUPPORT. O12: between one CS_CLEAR and the next, `ACC` is the sum of the bytes added so far (R85). -/
namespace Sys2Proof.Machine

/-! ## The bytes a list of instructions adds -/

theorem addedBytes_cons (i : Instr) (is : List Instr) : addedBytes (i :: is) = addedBy i ++ addedBytes is := rfl

theorem addedBy_eq_nil {i : Instr} (h : ∀ b, i ≠ .csAdd b) : addedBy i = [] := by
  unfold addedBy
  split
  · exact absurd rfl (h _)
  · rfl

theorem addedBytes_map_csAdd (bs : List Byte) : addedBytes (bs.map .csAdd) = bs := by
  induction bs with
  | nil => rfl
  | cons b bs ih => rw [List.map_cons, addedBytes_cons, ih]; rfl

theorem keepsSum_iff (i : Instr) : keepsSum i = true ↔ i ≠ .reset ∧ i ≠ .csClear := by
  rw [keepsSum, Bool.and_eq_true, bne_iff_ne, bne_iff_ne]

/-! ## `ACC` along a list of instructions -/

/-- One instruction that does not restart the sum adds the byte it is said to add, or nothing. -/
theorem acc_of_exec_keepsSum {i : Instr} {s t : State} (hi : keepsSum i = true) (h : exec i s = .next t) :
    t.acc.toNat = (s.acc.toNat + sumBytes (addedBy i)) % 256 := by
  by_cases hadd : ∃ b, i = .csAdd b
  · obtain ⟨b, rfl⟩ := hadd
    cases h
    exact accAdd_toNat s.acc b
  · obtain ⟨hreset, hclear⟩ := (keepsSum_iff i).mp hi
    have hacc : t.acc = s.acc := by
      by_contra hne
      rcases onlyThePortAndResetWriteAcc i s t h hne with hc | ha | hr
      exacts [hclear hc, hadd ha, hreset hr]
    rw [addedBy_eq_nil (not_exists.mp hadd), hacc]
    exact (Nat.mod_eq_of_lt (byte_lt s.acc)).symm

theorem execList_cons_eq_next {i : Instr} {is : List Instr} {s t : State} (h : execList (i :: is) s = .next t) :
    ∃ u, exec i s = .next u ∧ execList is u = .next t := by
  rw [execList] at h
  split at h
  · next u hu => exact ⟨u, hu, h⟩
  · cases h
  · cases h

/-- A list that does not restart the sum adds all its bytes to what `ACC` held, modulo 256. -/
theorem acc_of_execList_keepsSum {is : List Instr} {s t : State} (hk : ∀ i ∈ is, keepsSum i = true)
    (h : execList is s = .next t) : t.acc.toNat = (s.acc.toNat + sumBytes (addedBytes is)) % 256 := by
  induction is generalizing s with
  | nil =>
    cases h
    exact (Nat.mod_eq_of_lt (byte_lt _)).symm
  | cons i is ih =>
    obtain ⟨hi, his⟩ := List.forall_mem_cons.mp hk
    obtain ⟨u, hu, ht⟩ := execList_cons_eq_next h
    rw [ih his ht, acc_of_exec_keepsSum hi hu, addedBytes_cons, sumBytes_append, Nat.mod_add_mod, Nat.add_assoc]

/-- A list of CS_ADDs runs from every state, so the port takes any stream of bytes. -/
theorem execList_csAdd (bs : List Byte) (s : State) : ∃ t, execList (bs.map .csAdd) s = .next t := by
  induction bs generalizing s with
  | nil => exact ⟨s, rfl⟩
  | cons b bs ih => exact ih (s.setAcc (accAdd s.acc b))

/-! ## The outputs of a port that holds the sum of a list -/

theorem State.csChk_of_sum {s : State} {bs : List Byte} (h : s.acc.toNat = sumBytes bs % 256) :
    s.csChk = checksumOf bs := by
  rw [← BitVec.toNat_inj, State.csChk_toNat, checksumOf_toNat, h]

theorem State.verifyOf_of_sum {s : State} {bs : List Byte} (h : s.acc.toNat = sumBytes bs % 256) (hne : bs ≠ []) :
    verifyOf bs = some s.csZero := by
  rw [verifyOf_of_ne_nil hne, State.csZero_eq, h]

/-- Settles O12: CS_CLEAR starts the sum at 0, and the outputs are functions of the sum. -/
theorem streamingPortComputesTheFunctions : Obligations.StreamingPortComputesTheFunctions := by
  constructor
  · intro s t is hk h
    have hrun : execList is (s.setAcc 0#8) = .next t := h
    have hacc : t.acc.toNat = sumBytes (addedBytes is) % 256 :=
      (acc_of_execList_keepsSum hk hrun).trans (congrArg (· % 256) (Nat.zero_add _))
    refine ⟨hacc, State.csChk_of_sum hacc, State.verifyOf_of_sum hacc, fun hnil => ?_⟩
    rw [State.csZero_eq, hacc, hnil]
    rfl
  · intro s bs
    obtain ⟨t, ht⟩ := execList_csAdd bs (s.setAcc 0#8)
    exact ⟨t, ht, addedBytes_map_csAdd bs⟩

end Sys2Proof.Machine
end

section
/-! SUPPORT. O16, O17: the frame ENCODE builds, as a body and its trailer; its bytes, its length and its length field
(R90 to R92). -/
namespace Sys2Proof.Machine

/-- What a built frame's trailer is the checksum of: the header and the payload (R90). -/
def builtBody (key : Half) (p : List Byte) : List Byte := (encodeHeader key (p.length + 5)).bytes ++ p

/-- The frame ENCODE builds for a payload that fits (R90; `buildFrame_eq_ok`). -/
def builtFrame (key : Half) (p : List Byte) : List Byte := builtBody key p ++ [checksumOf (builtBody key p)]

theorem buildFrame_eq_ok (key : Half) {p : List Byte} (hp : p.length ≤ 246) :
    buildFrame key p = .ok (builtFrame key p) := by
  rw [buildFrame_ok hp, ← List.append_assoc]
  rfl

theorem buildFrame_eq_bufferTooLarge (key : Half) {p : List Byte} (hp : 247 ≤ p.length) :
    buildFrame key p = .bufferTooLarge :=
  if_pos (show 256 < 9 + p.length + 1 by omega)

theorem builtBody_length (key : Half) (p : List Byte) : (builtBody key p).length = 9 + p.length := by
  rw [builtBody, List.length_append, Header.bytes_length]

theorem builtFrame_length (key : Half) (p : List Byte) : (builtFrame key p).length = 10 + p.length := by
  rw [builtFrame, List.length_append, builtBody_length, List.length_singleton]
  omega

/-- The length field ENCODE writes reads back as the number it was split from. -/
theorem headerLength_encodeHeader (key : Half) {n : Nat} (h : n < 65536) :
    (headerLength (encodeHeader key n)).toNat = n :=
  u16le_lo8_hi8 n h

theorem headerLength_encodeHeader_eq (key : Half) {n : Nat} (h : n < 65536) :
    headerLength (encodeHeader key n) = BitVec.ofNat 16 n :=
  BitVec.eq_of_toNat_eq ((headerLength_encodeHeader key h).trans (Nat.mod_eq_of_lt h).symm)

theorem headerKey_encodeHeader (key : Half) (n : Nat) : headerKey (encodeHeader key n) = key := u16be_hi8_lo8 key

theorem hi8_of_lt {n : Nat} (h : n < 256) : hi8 n = 0#8 := by
  apply BitVec.eq_of_toNat_eq
  rw [hi8_toNat, Nat.div_eq_of_lt h]
  rfl

/-- Settles O16: the size test decides, and what passes it is laid out as R90 says; a length below 256 has no high byte. -/
theorem encodeBuildsTheFrame : Obligations.EncodeBuildsTheFrame := by
  refine fun s key p => ⟨fun hp => ?_, fun hp => ⟨builtBody key p, rfl, ?_, ?_, hi8_of_lt (by omega)⟩⟩
  · rw [exec, execEncode, buildFrame_eq_bufferTooLarge key hp, State.answer]
  · rw [exec, execEncode, buildFrame_eq_ok key hp, State.answer, builtFrame]
  · exact builtFrame_length key p

/-- Settles O17: the two length bytes are those of `len(P) + 5`, which a 16-bit field holds. -/
theorem encodeLengthFieldIsConsistent : Obligations.EncodeLengthFieldIsConsistent := by
  intro key p hp
  have hlen : (u16le (lo8 (p.length + 5)) (hi8 (p.length + 5))).toNat = p.length + 5 :=
    headerLength_encodeHeader key (by omega)
  refine ⟨builtFrame key p, lo8 (p.length + 5), hi8 (p.length + 5), buildFrame_eq_ok key hp, rfl, rfl, hlen, ?_,
    builtFrame_length key p⟩
  rw [hlen, builtFrame_length]
  omega

end Sys2Proof.Machine
end

section
/-! SUPPORT. O18: a built frame parses back whole, and a run that receives exactly a frame, in any beats, completes with
it (R94, R118). -/
namespace Sys2Proof.Machine

/-! ## The parse of a built frame -/

/-- Header, payload and trailer, with the length field the payload asks for, parse back into these three. -/
theorem parseFrame_header_payload_trailer {h : Header} {p : List Byte} (c : Byte)
    (hlen : (headerLength h).toNat = p.length + 5) :
    parseFrame (h.bytes ++ p ++ [c]) = .ok
      { dir := h.dir, dirLabel := dirLabelOf h.dir, devidB1 := h.devid1, devidB2 := h.devid2,
        deviceId := u16le h.devid1 h.devid2, declaredLength := headerLength h, payloadLength := p.length,
        group := h.group, device := h.device, commandKey := headerKey h, payload := p, checksumObserved := c,
        checksumComputed := checksumOf (h.bytes ++ p), checksumValid := checksumOf (h.bytes ++ p) == c } := by
  have hbody : (h.bytes ++ p).length = 4 + (p.length + 5) := by
    rw [List.length_append, Header.bytes_length]
    omega
  have htake : (h.bytes ++ p ++ [c]).take (4 + (p.length + 5)) = h.bytes ++ p := by
    rw [← hbody, List.take_left]
  have hspan : Config.preLen + (p.length + 5) - 1 = 4 + (p.length + 5) := by
    change 5 + (p.length + 5) - 1 = 4 + (p.length + 5)
    omega
  have hpayload : (h.bytes ++ p).drop Config.hdrLen = p := List.drop_left (l₁ := h.bytes)
  obtain ⟨chk, hchk, hparse⟩ := parseWithHeader_ok (h := h) (b := h.bytes ++ p ++ [c]) (by omega)
    (by rw [List.length_append, hbody, List.length_singleton]; omega)
  obtain rfl : c = chk := by
    rw [hlen, ← hbody, List.getElem?_concat_length] at hchk
    exact Option.some.inj hchk
  have hpacket : parseFrame (h.bytes ++ p ++ [c]) = .ok (packetOf h (h.bytes ++ p ++ [c]) c) := by
    rw [← hparse, List.append_assoc, parseFrame_header]
  rw [hpacket, packetOf, hlen, hspan, htake, hpayload]
  rfl

/-- Every operand of ENCODE comes back, and the trailer is the checksum of the body. -/
theorem parseFrame_builtFrame (key : Half) {p : List Byte} (hp : p.length ≤ 246) :
    parseFrame (builtFrame key p) = .ok
      { dir := 0xAA#8, dirLabel := .h2d, devidB1 := 0#8, devidB2 := 0#8, deviceId := 0#16,
        declaredLength := BitVec.ofNat 16 (p.length + 5), payloadLength := p.length, group := 0#8, device := 0#8,
        commandKey := key, payload := p, checksumObserved := checksumOf (builtBody key p),
        checksumComputed := checksumOf (builtBody key p), checksumValid := true } := by
  have hlt : p.length + 5 < 65536 := by omega
  rw [builtFrame, builtBody, parseFrame_header_payload_trailer _ (headerLength_encodeHeader key hlt),
    headerLength_encodeHeader_eq key hlt, headerKey_encodeHeader, beq_self_eq_true]
  rfl

/-! ## A run that receives exactly a frame -/

/-- A beat of the transport's that fits in the buffer is appended and tested. -/
theorem exec_rxData_of_fits {s : State} (hs : s.state = .accumulating) {b : List Byte}
    (hb : b.length ≤ Config.rxBeatMax) (hfit : s.cnt + b.length ≤ Config.maxFrame) :
    exec (.rxData b) s = lengthTest (s.appended b) :=
  rxDataOp_accepted hs (by omega) (Nat.le_min.mpr ⟨hb, Nat.le_sub_of_add_le (by omega)⟩)

/-- The length test waits while the bytes still to come make the frame whole: once nine bytes are there, those to come
leave the total as it is. -/
theorem lengthTest_of_lt_total {s : State} {rest : List Byte} {total : Nat}
    (htotal : (s.appended rest).bufferTotal = some total) (hlt : s.cnt < total) : lengthTest s = .next s := by
  by_cases h9 : Config.hdrLen ≤ s.cnt
  · rw [State.bufferTotal_appended h9] at htotal
    unfold lengthTest
    rw [if_pos h9, htotal]
    exact if_neg (Nat.not_le_of_lt hlt)
  · exact if_neg h9

/-- Beats that bring exactly a whole frame, and not an empty one, append it and complete with all of it, wherever the
cuts lie. By induction on the beats: while bytes are to come the length test waits, the beat with the last of them
completes, and empty beats after it are ignored. -/
theorem execList_rxData_of_exact {s : State} (hs : s.state = .accumulating) (beats : List (List Byte))
    (hb : ∀ b ∈ beats, b.length ≤ Config.rxBeatMax) (hne : beats.flatten ≠ [])
    (h9 : Config.hdrLen ≤ s.cnt + beats.flatten.length) (hfit : s.cnt + beats.flatten.length ≤ Config.maxFrame)
    (htotal : (s.appended beats.flatten).bufferTotal = some (s.cnt + beats.flatten.length)) :
    execList (beats.map .rxData) s =
      .next ((s.appended beats.flatten).completeRun (s.cnt + beats.flatten.length)) := by
  induction beats generalizing s with
  | nil => exact absurd rfl hne
  | cons b beats ih =>
    obtain ⟨hhead, htail⟩ := List.forall_mem_cons.mp hb
    rw [List.flatten_cons, List.length_append, ← Nat.add_assoc] at h9 hfit htotal ⊢
    rw [State.appended_append] at htotal ⊢
    have hrx : exec (.rxData b) s = lengthTest (s.appended b) := exec_rxData_of_fits hs hhead (by omega)
    rw [List.map_cons]
    by_cases hrest : beats.flatten = []
    · rw [hrest] at h9 htotal ⊢
      have hdone : lengthTest (s.appended b) = .next ((s.appended b).completeRun (s.cnt + b.length)) :=
        lengthTest_appended_of_whole h9 htotal (Nat.le_refl _) []
      rw [execList_cons_of_next (hrx.trans hdone)]
      exact execList_rxData_outside (by simp) beats
    · have hpos : 0 < beats.flatten.length := List.length_pos_iff.mpr hrest
      have hwait : lengthTest (s.appended b) = .next (s.appended b) :=
        lengthTest_of_lt_total htotal (by rw [State.appended_cnt]; omega)
      rw [execList_cons_of_next (hrx.trans hwait)]
      exact ih hs htail hrest h9 hfit htotal

/-! ## What a run from its beginning has received -/

theorem State.received_completed_beginRun (s : State) (f : List Byte) :
    ((s.beginRun.appended f).completeRun f.length).received = some f :=
  received_of_loadList ((Memory.loadList_eq_some_iff _ _ _ _).mpr ⟨rfl, Memory.load_storeList_inside s.rxbuf 0 f⟩)

theorem State.readByte_appended_beginRun (s : State) {f : List Byte} {i : Nat} {b : Byte} (h : f[i]? = some b) :
    (s.beginRun.appended f).readByte i = some b := by
  obtain ⟨hi, rfl⟩ := List.getElem?_eq_some_iff.mp h
  have hload := Memory.load_storeList_inside s.rxbuf 0 f i hi
  rw [Nat.zero_add] at hload
  rwa [State.readByte_of_lt (by rw [State.appended_cnt, State.beginRun_cnt]; omega)]

/-- START and a frame of its own declared length, cut into any beats, complete with that frame. -/
theorem execList_start_rxData {s : State} (hs : s.state ≠ .accumulating) (beats : List (List Byte))
    (hb : ∀ b ∈ beats, b.length ≤ Config.rxBeatMax) (h9 : Config.hdrLen ≤ beats.flatten.length)
    (hfit : beats.flatten.length ≤ Config.maxFrame) {lo hi : Byte} (h3 : beats.flatten[3]? = some lo)
    (h4 : beats.flatten[4]? = some hi) (hlen : beats.flatten.length = 5 + (u16le lo hi).toNat) :
    execList (.start :: beats.map .rxData) s =
      .next ((s.beginRun.appended beats.flatten).completeRun beats.flatten.length) := by
  have hzero : s.beginRun.cnt + beats.flatten.length = beats.flatten.length := Nat.zero_add _
  have htotal : (s.beginRun.appended beats.flatten).bufferTotal = some beats.flatten.length := by
    rw [State.bufferTotal_of_bytes (s.readByte_appended_beginRun h3) (s.readByte_appended_beginRun h4), hlen]
  have hne : beats.flatten ≠ [] := fun hnil => by simp [hnil] at h3
  have hstart : exec .start s = .next s.beginRun := execStart_outside hs
  rw [execList_cons_of_next hstart]
  rw [← hzero] at h9 hfit htotal
  rw [execList_rxData_of_exact rfl beats hb hne h9 hfit htotal, hzero]

/-- Settles O18: the length field of a built frame is its own (O17), so the run completes with all of it, and RESULT is
the parse of what was received. -/
theorem encodedFrameComesBackWhole : Obligations.EncodedFrameComesBackWhole := by
  intro key p hp
  obtain ⟨f, lo, hi, hf, h3, h4, -, hlen, hlen10⟩ := encodeLengthFieldIsConsistent key p hp
  obtain rfl : builtFrame key p = f := EncodeResult.ok.inj ((buildFrame_eq_ok key hp).symm.trans hf)
  refine ⟨builtFrame key p, checksumOf (builtBody key p), hf, parseFrame_builtFrame key hp, fun s beats hs hflat hb => ?_⟩
  rw [← hflat] at h3 h4 hlen hlen10 ⊢
  have h9 : Config.hdrLen ≤ beats.flatten.length := by rw [hlen10]; exact Nat.le_add_right_of_le (by decide)
  have hfit : beats.flatten.length ≤ Config.maxFrame := by rw [hlen10]; exact Nat.add_le_add_left hp 10
  have hreceived := s.received_completed_beginRun beats.flatten
  exact ⟨_, execList_start_rxData hs beats hb h9 hfit h3 h4 hlen, rfl, rfl, hreceived, result_of_received rfl hreceived,
    rfl, rfl, rfl, rfl⟩

end Sys2Proof.Machine
end

section
/-! SUPPORT. O19 to O23: the packet of a successful parse, read off the declared span of the buffer (R95 to R106). -/
namespace Sys2Proof.Machine

/-! ## The length field's bytes, and the label of a direction byte -/

theorem lo8_u16le (lo hi : Byte) : lo8 (u16le lo hi).toNat = lo := by
  have := byte_lt lo
  rw [← BitVec.toNat_inj, lo8_toNat, u16le_toNat]
  omega

theorem hi8_u16le (lo hi : Byte) : hi8 (u16le lo hi).toNat = hi := by
  have := byte_lt lo
  have := byte_lt hi
  rw [← BitVec.toNat_inj, hi8_toNat, u16le_toNat]
  omega

theorem dirLabelOf_eq_h2d_iff (b : Byte) : dirLabelOf b = .h2d ↔ b = 0xAA#8 := by
  unfold dirLabelOf
  split
  next h => exact iff_of_true rfl h
  next h => split <;> exact iff_of_false nofun h

theorem dirLabelOf_eq_d2h_iff (b : Byte) : dirLabelOf b = .d2h ↔ b = 0xAB#8 := by
  unfold dirLabelOf
  split
  next h => exact iff_of_false nofun (by rw [h]; decide)
  next =>
    split
    next h => exact iff_of_true rfl h
    next h => exact iff_of_false nofun h

/-- `unknown` is the label of what is neither direction (R101). -/
theorem dirLabelOf_eq_unknown_iff (b : Byte) : dirLabelOf b = .unknown ↔ b ≠ 0xAA#8 ∧ b ≠ 0xAB#8 := by
  rw [Ne, Ne, ← dirLabelOf_eq_h2d_iff, ← dirLabelOf_eq_d2h_iff]
  cases dirLabelOf b <;> decide

/-! ## The declared span: header, payload and trailer -/

/-- The frame is its body and the trailer at offset `4 + L` (R95). -/
theorem take_span_eq_body_append {b : List Byte} {l : Nat} {chk : Byte} (hchk : b[4 + l]? = some chk) :
    b.take (5 + l) = b.take (4 + l) ++ [chk] := by
  rw [show 5 + l = 4 + l + 1 by omega, List.take_add_one, hchk, Option.toList_some]

/-- A body that holds the whole header is the header and what comes after its nine bytes. -/
theorem take_body_eq_header_append (h : Header) (rest : List Byte) {n : Nat} (hn : 9 ≤ n) :
    (h.bytes ++ rest).take n = h.bytes ++ ((h.bytes ++ rest).take n).drop 9 := by
  have hheader : ((h.bytes ++ rest).take n).take 9 = h.bytes := by
    rw [List.take_take, Nat.min_eq_left hn]
    exact List.take_left (l₁ := h.bytes)
  conv_lhs => rw [← List.take_append_drop 9 ((h.bytes ++ rest).take n), hheader]

/-! ## The fields of a packet -/

theorem packetOf_checksumComputed (h : Header) (b : List Byte) (chk : Byte) :
    (packetOf h b chk).checksumComputed = checksumOf (b.take (4 + (headerLength h).toNat)) := by
  have hbody : Config.preLen + (headerLength h).toNat - 1 = 4 + (headerLength h).toNat := by
    change 5 + (headerLength h).toNat - 1 = 4 + (headerLength h).toNat
    omega
  rw [← hbody]
  rfl

/-- The verdict is the comparison of the two checksums in the packet (R102). -/
theorem packetOf_checksumValid (h : Header) (b : List Byte) (chk : Byte) :
    (packetOf h b chk).checksumValid = ((packetOf h b chk).checksumComputed == chk) := rfl

/-- Header bytes and length field of a packet give back the header it was made from. -/
theorem packetBytes_packetOf (h : Header) (b : List Byte) (chk : Byte) :
    packetBytes (packetOf h b chk) = h.bytes ++ ((packetOf h b chk).payload ++ [chk]) := by
  rw [packetBytes]
  change [h.dir, h.devid1, h.devid2, lo8 (u16le h.lenLo h.lenHi).toNat, hi8 (u16le h.lenLo h.lenHi).toNat, h.group,
    h.device, hi8 (u16be h.cmdHi h.cmdLo).toNat, lo8 (u16be h.cmdHi h.cmdLo).toNat] ++ _ = _
  rw [lo8_u16le, hi8_u16le, hi8_u16be, lo8_u16be]
  rfl

theorem packetOf_payload_length {h : Header} {b : List Byte} (hl : 5 + (headerLength h).toNat ≤ b.length) (chk : Byte) :
    (packetOf h b chk).payload.length = (headerLength h).toNat - 5 := by
  change ((b.take (4 + (headerLength h).toNat)).drop 9).length = _
  rw [List.length_drop, List.length_take]
  omega

/-- A packet reads no byte after the declared span (R99). -/
theorem packetOf_take_span (h : Header) (b : List Byte) (chk : Byte) :
    packetOf h (b.take (5 + (headerLength h).toNat)) chk = packetOf h b chk := by
  have hbody : (b.take (5 + (headerLength h).toNat)).take (4 + (headerLength h).toNat) =
      b.take (4 + (headerLength h).toNat) := by
    rw [List.take_take, Nat.min_eq_left (by omega)]
  have hsum : (b.take (5 + (headerLength h).toNat)).take (Config.preLen + (headerLength h).toNat - 1) =
      b.take (Config.preLen + (headerLength h).toNat - 1) := by
    rw [List.take_take, Nat.min_eq_left (Nat.sub_le _ 1)]
  rw [packetOf, packetOf, hbody, hsum]

/-! ## The parse of a buffer with a whole header -/

theorem parseWithHeader_of_lt_five {h : Header} (hlt : (headerLength h).toNat < 5) (b : List Byte) :
    parseWithHeader h b = .malformed .lengthUnderflow := if_pos hlt

/-- Settles O19: the two length tests once the header is there, and below nine bytes the header is not. -/
theorem decodeParsesByTheLengthField : Obligations.DecodeParsesByTheLengthField := by
  refine ⟨fun _ _ => rfl, fun _ => parseFrame_short, ?_⟩
  rintro h rest b l rfl hl
  obtain rfl : l = (headerLength h).toNat := hl
  rw [parseFrame_header]
  rcases parseWithHeader_cases h (h.bytes ++ rest) with ⟨hlt, he⟩ | ⟨hge, hshort, he⟩ | ⟨hge, hwhole, chk, hchk, he⟩
  · exact ⟨fun _ => he, fun hge => absurd hge (by omega), fun hge => absurd hge (by omega)⟩
  · exact ⟨fun hlt => absurd hlt (by omega), fun _ _ => he, fun _ hwhole => absurd hwhole (by omega)⟩
  · refine ⟨fun hlt => absurd hlt (by omega), fun _ hshort => absurd hshort (by omega), fun _ _ => ⟨chk, hchk, ?_⟩⟩
    rw [he, ← packetOf_checksumComputed h _ chk]
    rfl

/-- Settles O20: cutting at the declared total keeps the header, each length test's outcome, the trailer and the packet. -/
theorem decodeIgnoresBytesAfterTheFrame : Obligations.DecodeIgnoresBytesAfterTheFrame := by
  intro h rest l hl h4
  obtain rfl : l = (headerLength h).toNat := hl
  have hcut := take_body_eq_header_append h rest (n := 5 + (headerLength h).toNat) (by omega)
  rw [hcut, parseFrame_header, parseFrame_header, ← hcut]
  rcases parseWithHeader_cases h (h.bytes ++ rest) with ⟨hlt, he⟩ | ⟨-, hshort, -⟩ | ⟨hge, hwhole, chk, hchk, he⟩
  · rw [he, parseWithHeader_of_lt_five hlt]
  · rw [List.take_of_length_le (Nat.le_of_lt hshort)]
  · obtain ⟨chk', hchk', he'⟩ := parseWithHeader_ok (b := (h.bytes ++ rest).take (5 + (headerLength h).toNat)) hge
      (by rw [List.length_take]; omega)
    obtain rfl : chk = chk' := by
      rw [List.getElem?_take_of_lt (by omega), hchk] at hchk'
      exact Option.some.inj hchk'
    rw [he, he', packetOf_take_span]

/-- Settles O21: the declared span is header, payload and trailer, and the packet holds all three. -/
theorem decodedPayloadHasTheDeclaredLength : Obligations.DecodedPayloadHasTheDeclaredLength := by
  intro b p hp
  obtain ⟨h, rest, chk, rfl, h5, hl, hchk, rfl⟩ := parseFrame_eq_ok hp
  have hlen := packetOf_payload_length hl chk
  refine ⟨rfl, hlen, h5, fun heq => ?_, fun hb => ?_, ?_⟩
  · change (headerLength h).toNat = 5 at heq
    rw [heq] at hlen hchk
    exact ⟨List.eq_nil_of_length_eq_zero hlen, hchk⟩
  · change (headerLength h).toNat ≤ 251 ∧ (headerLength h).toNat - 5 ≤ 246
    omega
  · change _ = (h.bytes ++ rest).take (5 + (headerLength h).toNat)
    rw [take_span_eq_body_append hchk, take_body_eq_header_append h rest (by omega), packetBytes_packetOf,
      List.append_assoc]
    rfl

/-- Settles O22: the packet's direction is the header's first byte, and its label is that byte's. -/
theorem directionLabelFollowsByteZero : Obligations.DirectionLabelFollowsByteZero := by
  intro b p hp
  obtain ⟨h, rest, chk, rfl, -, -, -, rfl⟩ := parseFrame_eq_ok hp
  exact ⟨rfl, dirLabelOf_eq_h2d_iff h.dir, dirLabelOf_eq_d2h_iff h.dir, dirLabelOf_eq_unknown_iff h.dir⟩

/-! ## What a parse's success and its verdict depend on -/

/-- With a whole header, a parse succeeds exactly when both length tests pass. -/
theorem parseFrame_header_isOk_iff (h : Header) (rest : List Byte) : (parseFrame (h.bytes ++ rest)).isOk = true ↔
    5 ≤ (headerLength h).toNat ∧ 5 + (headerLength h).toNat ≤ 9 + rest.length := by
  have htotal : (h.bytes ++ rest).length = 9 + rest.length := List.length_append
  rw [parseFrame_header, ← htotal]
  rcases parseWithHeader_cases h (h.bytes ++ rest) with ⟨hlt, he⟩ | ⟨-, hshort, he⟩ | ⟨hge, hwhole, _, -, he⟩ <;> rw [he]
  · exact iff_of_false nofun (by omega)
  · exact iff_of_false nofun (by omega)
  · exact iff_of_true rfl ⟨hge, hwhole⟩

/-- The verdict is the checksum law over the declared span (R86, R102). -/
theorem packetOf_checksumValid_iff {h : Header} {b : List Byte} {chk : Byte}
    (hchk : b[4 + (headerLength h).toNat]? = some chk) :
    (packetOf h b chk).checksumValid = true ↔ sumBytes (b.take (5 + (headerLength h).toNat)) % 256 = 0 := by
  rw [packetOf_checksumValid, packetOf_checksumComputed, beq_iff_eq, checksumOf_eq_iff, take_span_eq_body_append hchk,
    sumBytes_append, sumBytes_cons, sumBytes_nil, Nat.add_zero]

/-- Settles O23: both length tests read the declared length and the number of bytes alone; the verdict reads the span. -/
theorem onlyLengthsCanMakeAParseFail : Obligations.OnlyLengthsCanMakeAParseFail := by
  constructor
  · intro h h' rest rest' hlo hhi hrest
    have hlen : headerLength h = headerLength h' := by rw [headerLength, headerLength, hlo, hhi]
    rw [Bool.eq_iff_iff, parseFrame_header_isOk_iff, parseFrame_header_isOk_iff, hlen, hrest]
  · intro b p hp
    obtain ⟨h, rest, chk, rfl, -, -, hchk, rfl⟩ := parseFrame_eq_ok hp
    exact ⟨packetOf_checksumValid h _ chk, packetOf_checksumValid_iff hchk⟩

end Sys2Proof.Machine
end

section
/-! SUPPORT. O24, O25: a function answers its caller and nothing else; the direction rows (R101, R107, R157). -/
namespace Sys2Proof.Machine

/-- A function that answers at all changes the reply alone (R107, R157): no event is a function. -/
theorem exec_function_next {i : Instr} {s t : State} (hi : isFunction i = true) (h : exec i s = .next t) :
    ∃ r, t = s.answer r := by
  rcases exec_next_cases h with ⟨rfl, -⟩ | ⟨rfl, -⟩ | ⟨_, rfl, -⟩ | ⟨rfl, -⟩ | ⟨rfl, -⟩ | ⟨rfl, -⟩ | ⟨rfl, -⟩ |
    ⟨_, rfl, -⟩ | ⟨-, -, -, -, hanswer⟩
  rotate_right
  · exact hanswer
  all_goals cases hi

/-- Settles O24: an answer is written to the reply port, and every other field is framed. -/
theorem functionsChangeNoState : Obligations.FunctionsChangeNoState := by
  intro i s t hi h
  obtain ⟨r, rfl⟩ := exec_function_next hi h
  exact ⟨rfl, rfl, rfl, rfl, rfl, rfl, rfl⟩

theorem dirLabel_of_parseFrame {h : Header} {rest : List Byte} {p : DecodedPacket}
    (hp : parseFrame (h.bytes ++ rest) = .ok p) : p.dirLabel = dirLabelOf h.dir := by
  obtain ⟨chk, rfl⟩ := parseFrame_header_eq_ok hp
  rfl

/-- Settles O25: each row shows the frame with its direction byte, which the rows and the label both read. -/
theorem directionRowsLabelTheFrame : Obligations.DirectionRowsLabelTheFrame := by
  intro s h rest
  simp only [mem_rowsOf, rowApplies_iff]
  exact ⟨⟨_, showFrame_eq _ rest s, rfl, rfl, (by decide : (0xAA#8 : Byte) ≠ 0xAB#8), fun _ => dirLabel_of_parseFrame⟩,
    ⟨_, showFrame_eq _ rest s, rfl, rfl, (by decide : (0xAB#8 : Byte) ≠ 0xAA#8), fun _ => dirLabel_of_parseFrame⟩⟩

end Sys2Proof.Machine
end

section
/-! SUPPORT. O30, O32 to O35, O52: the events of the reassembler but a beat that is taken, in and outside `Accumulating`
(R112, R114, R116, R117, R119), and the last tick against the completing beat (R124). -/
namespace Sys2Proof.Machine

theorem exec_tick_outside {s : State} (hs : s.state ≠ .accumulating) : exec .tick s = .next s :=
  congrArg Host.Outcome.next (tickOp_outside hs)

theorem exec_tick_before_deadline {s : State} (hs : s.state = .accumulating)
    (hne : s.timer + 1 ≠ Config.deadlineTicks) : exec .tick s = .next (s.setTimer (s.timer + 1)) :=
  congrArg Host.Outcome.next ((tickOp_inside hs).trans (if_neg hne))

theorem exec_tick_at_deadline {s : State} (hs : s.state = .accumulating) (hlast : s.timer + 1 = Config.deadlineTicks) :
    exec .tick s = .next ((s.setTimer (s.timer + 1)).endRun .timedOut) :=
  congrArg Host.Outcome.next ((tickOp_inside hs).trans (if_pos hlast))

theorem exec_rxData_outside {s : State} (hs : s.state ≠ .accumulating) (bytes : List Byte) :
    exec (.rxData bytes) s = .next s :=
  rxDataOp_outside bytes hs

/-- Settles O30: an accepted START begins a run, an ignored one leaves it, and neither leaves `Complete`. -/
theorem startBeginsARunOrIsIgnored : Obligations.StartBeginsARunOrIsIgnored := by
  intro s
  by_cases hs : s.state = .accumulating
  · exact ⟨s, execStart_inside hs, State.result_of_not_complete (by simp [hs]), fun hns => absurd hs hns, fun _ => rfl⟩
  · exact ⟨s.beginRun, execStart_outside hs, State.result_of_not_complete nofun, fun _ => rfl, fun h => absurd h hs⟩

/-- Settles O32: the beat's bound is `State.beatBound`. -/
theorem rxDataOverItsBoundIsRefused : Obligations.RxDataOverItsBoundIsRefused :=
  fun _ d hs hover => (rxDataOp_inside d hs).trans (if_neg (Nat.not_le_of_lt hover))

/-- Settles O33: the meaning of RX_WOULD_BLOCK. -/
theorem rxWouldBlockChangesNothing : Obligations.RxWouldBlockChangesNothing := fun _ => rfl

/-- Settles O34, by the two sides of RX_ERROR. -/
theorem rxErrorEndsTheRun : Obligations.RxErrorEndsTheRun :=
  fun _ => ⟨fun hs => ⟨_, execRxError_inside hs, rfl, State.result_of_not_complete nofun, rfl⟩, execRxError_outside⟩

/-- Settles O35, by the three cases of TICK. -/
theorem tickCountsToTheDeadline : Obligations.TickCountsToTheDeadline :=
  fun _ => ⟨exec_tick_before_deadline,
    fun hs hlast => ⟨_, exec_tick_at_deadline hs hlast, rfl, State.result_of_not_complete nofun, rfl⟩,
    exec_tick_outside⟩

/-- Settles O52: whichever ends the run, the other comes outside `Accumulating` and changes nothing. -/
theorem lastTickAgainstCompletingBeat : Obligations.LastTickAgainstCompletingBeat := by
  intro s t d hs hlast hbeat hcomplete
  have htick : exec .tick t = .next t := exec_tick_outside (by simp [hcomplete])
  refine ⟨?_, (s.setTimer (s.timer + 1)).endRun .timedOut, ?_, rfl, rfl, hlast⟩
  · rw [execList_cons_of_next hbeat, execList_cons_of_next htick, execList]
  · rw [execList_cons_of_next (exec_tick_at_deadline hs hlast),
      execList_cons_of_next (exec_rxData_outside (by simp) d), execList]

end Sys2Proof.Machine
end

section
/-! SUPPORT. O31, O38, O40: what a beat within its bound leaves, and that nothing else enters `Complete` (R115, R118,
R123). -/
namespace Sys2Proof.Machine

/-- The length test writes `STATE` and `CNT` alone. -/
theorem lengthTest_frame {s t : State} (h : lengthTest s = .next t) :
    t.rxbuf = s.rxbuf ∧ t.timer = s.timer ∧ t.acc = s.acc ∧ t.reply = s.reply ∧ t.inbox = s.inbox := by
  rcases lengthTest_cases s with ⟨-, he⟩ | ⟨-, _, -, ⟨-, he⟩ | ⟨-, he⟩⟩ | ⟨-, -, he⟩ <;> cases he.symm.trans h <;>
    exact ⟨rfl, rfl, rfl, rfl, rfl⟩

/-- Where every byte below `CNT` holds a value, the length test answers, and from the ninth byte on the length field
decides what. -/
theorem lengthTest_verdict {s : State} (h : ∀ a, a < s.cnt → (s.rxbuf.load a).isSome) :
    ∃ t, lengthTest s = .next t ∧ (s.cnt < 9 → t = s) ∧
      (9 ≤ s.cnt → ∃ lo hi, s.rxbuf.load 3 = some lo ∧ s.rxbuf.load 4 = some hi ∧
        (5 + (u16le lo hi).toNat ≤ s.cnt → t = s.completeRun (5 + (u16le lo hi).toNat)) ∧
        (s.cnt < 5 + (u16le lo hi).toNat → t = s)) := by
  rcases lengthTest_valid h with ⟨hlt, he⟩ | ⟨h9, lo, hi, h3, h4, -, ⟨hlt, he⟩ | ⟨hle, he⟩⟩
  · exact ⟨s, he, fun _ => rfl, fun h9 => by omega⟩
  · exact ⟨s, he, fun _ => rfl, fun _ => ⟨lo, hi, h3, h4, fun hle => by omega, fun _ => rfl⟩⟩
  · exact ⟨_, he, fun hlt => by omega, fun _ => ⟨lo, hi, h3, h4, fun _ => rfl, fun hlt => by omega⟩⟩

/-- In `Complete`, `RESULT` is the parse of the bytes below `CNT`. -/
theorem BufferValid.exists_result {s : State} (h : BufferValid s) (hs : s.state = .complete) :
    ∃ f, s.rxbuf.loadList 0 s.cnt = some f ∧ s.result = some (parseFrame f) := by
  obtain ⟨f, hf, -, -⟩ := h.exists_received
  exact ⟨f, (State.memRead_eq_some_iff.mp hf).2, result_of_received hs hf⟩

/-- Settles O31: a beat within its bound is appended, and the length test decides. -/
theorem rxDataAppendsThenTestsTheLength : Obligations.RxDataAppendsThenTestsTheLength := by
  refine ⟨fun s d h hs hb => ?_, fun s d hs => exec_rxData_outside hs d⟩
  have hrx : exec (.rxData d) s = lengthTest (s.appended d) := rxDataOp_accepted hs h.v1 hb
  obtain ⟨t, he, hshort, hheader⟩ := lengthTest_verdict (appended_valid h.buffer.2 d)
  have hinv : Inv t := h.exec (hrx.trans he)
  obtain ⟨hbuf, htimer, hacc, hreply, hinbox⟩ := lengthTest_frame he
  refine ⟨t, hrx.trans he, htimer, hacc, hreply, hinbox, fun i hi => ?_, fun a ha => ?_, fun hlt => ?_, fun h9 => ?_,
    fun hd => ?_⟩
  · rw [hbuf]
    exact Memory.load_storeList_inside s.rxbuf s.cnt d i hi
  · rw [hbuf]
    exact Memory.load_storeList_outside s.rxbuf d ha
  · obtain rfl := hshort hlt
    exact ⟨hs, rfl⟩
  · obtain ⟨lo, hi, h3, h4, hwhole, hpartial⟩ := hheader h9
    refine ⟨lo, hi, hbuf ▸ h3, hbuf ▸ h4, fun hle => ?_, fun hlt => ?_⟩
    · obtain rfl := hwhole hle
      exact ⟨rfl, rfl, hinv.buffer.exists_result rfl⟩
    · obtain rfl := hpartial hlt
      exact ⟨hs, rfl⟩
  · subst hd
    exact Host.Outcome.next.inj (he.symm.trans (h.lengthTest_eq hs))

/-- Settles O38: of what an instruction can write, only a beat leads to `Complete`, and only by a passed length test. -/
theorem completeIsEnteredOnlyWithAWholeFrame : Obligations.CompleteIsEnteredOnlyWithAWholeFrame := by
  intro i s t hs he ht
  cases writesOf_exec he with
  | noneOfRun hstate => exact absurd (hstate.symm.trans ht) hs
  | reset hr => cases (congrArg State.state hr).symm.trans ht
  | start _ hr => cases (congrArg State.state hr).symm.trans ht
  | error _ hr => cases (congrArg State.state hr).symm.trans ht
  | tick _ _ _ _ hstate => simp [ht] at hstate
  | beat d hacc =>
    rcases rxDataOp_next he with ⟨hns, -⟩ | ⟨-, -, -, ⟨rfl, -⟩ | ⟨total, h9, htotal, hle, rfl⟩⟩
    · exact absurd hacc hns
    · cases hacc.symm.trans ht
    · exact ⟨d, rfl, hacc, h9, hle, State.bufferTotal_completeRun htotal hle⟩

/-- A buffer with a whole header whose declared length is below 5 (R98). -/
theorem parseFrame_of_length_lt_five {b : List Byte} {lo hi : Byte} (h9 : 9 ≤ b.length) (h3 : b[3]? = some lo)
    (h4 : b[4]? = some hi) (hlt : (u16le lo hi).toNat < 5) : parseFrame b = .malformed .lengthUnderflow := by
  obtain ⟨h, rest, rfl⟩ := exists_header_of_length h9
  obtain rfl : h.lenLo = lo := Option.some.inj h3
  obtain rfl : h.lenHi = hi := Option.some.inj h4
  rw [parseFrame_header]
  exact parseWithHeader_of_lt_five hlt _

/-- Settles O40: the ninth byte is past every total of at most 9, and the frame is cut to that total. -/
theorem undersizedLengthCompletesMalformed : Obligations.UndersizedLengthCompletesMalformed := by
  intro s d lo hi h hs hb h9 h3 h4 hl
  have hrx : exec (.rxData d) s = lengthTest (s.appended d) := rxDataOp_accepted hs h.v1 hb
  obtain ⟨t, he, -, hheader⟩ := lengthTest_verdict (appended_valid h.buffer.2 d)
  obtain ⟨lo', hi', h3', h4', hwhole, -⟩ := hheader h9
  obtain rfl : lo = lo' := Option.some.inj (h3.symm.trans h3')
  obtain rfl : hi = hi' := Option.some.inj (h4.symm.trans h4')
  obtain rfl := hwhole (by rw [State.appended_cnt]; omega)
  obtain ⟨f, hf, hlen, hbytes⟩ := (h.exec (hrx.trans he)).buffer.exists_received
  rw [State.completeRun_cnt] at hlen hbytes
  refine ⟨_, hrx.trans he, rfl, rfl, fun hle => ?_, fun heq => ?_⟩
  · rw [result_of_received rfl hf, parseFrame_short (by omega)]
  · have hlo : f[3]? = some lo := (hbytes 3 (by omega)).trans ((State.readByte_of_lt (by simp [heq])).trans h3)
    have hhi : f[4]? = some hi := (hbytes 4 (by omega)).trans ((State.readByte_of_lt (by simp [heq])).trans h4)
    rw [result_of_received rfl hf, parseFrame_of_length_lt_five (by omega) hlo hhi (by omega)]

end Sys2Proof.Machine
end

section
/-! SUPPORT. O36, O39: a run along a list of instructions with no RESET and no START, and along an infinite run of the
machine (R120, R122, R188). -/
namespace Sys2Proof.Machine

theorem keepsRun_iff (i : Instr) : keepsRun i = true ↔ i ≠ .reset ∧ i ≠ .start := by
  rw [keepsRun, Bool.and_eq_true, bne_iff_ne, bne_iff_ne]

theorem RxState.terminal_iff (x : RxState) :
    x.terminal = true ↔ x = .complete ∨ x = .timedOut ∨ x = .transportError := by
  cases x <;> simp [RxState.terminal]

/-- What every instruction of a list keeps, the list keeps. -/
theorem execList_keeps {P : Instr → Prop} {I : State → Prop}
    (hI : ∀ i s t, P i → I s → exec i s = .next t → I t) {is : List Instr} {s t : State} (hP : ∀ i ∈ is, P i) (hs : I s)
    (h : execList is s = .next t) : I t := by
  induction is generalizing s with
  | nil => cases h; exact hs
  | cons i is ih =>
    obtain ⟨hi, his⟩ := List.forall_mem_cons.mp hP
    obtain ⟨u, hu, ht⟩ := execList_cons_eq_next h
    exact ih his (hI i s u hi hs hu) ht

theorem Inv.execList {is : List Instr} {s t : State} (h : Inv s) (he : execList is s = .next t) : Inv t :=
  execList_keeps (P := fun _ => True) (fun _ _ _ _ => Inv.exec) (fun _ _ => trivial) h he

/-! ## `STATE` and `TIMER` within a run -/

/-- With RESET and START set aside, `STATE` changes only from `Accumulating` to a terminal state (R113). -/
theorem state_of_exec_keepsRun {i : Instr} {s t : State} (hi : keepsRun i = true) (h : exec i s = .next t) :
    t.state = s.state ∨ s.state = .accumulating ∧ t.state.terminal = true := by
  cases writesOf_exec h with
  | noneOfRun hstate => exact .inl hstate
  | reset => cases hi
  | start => cases hi
  | beat _ hs _ _ hstate => exact hstate.imp (·.trans hs.symm) fun hended => ⟨hs, by rw [hended]; rfl⟩
  | error hs ht => exact .inr ⟨hs, ht ▸ rfl⟩
  | tick hs _ _ _ hstate => exact hstate.imp (·.trans hs.symm) fun hended => ⟨hs, by rw [hended]; rfl⟩

/-- So a run along a list goes on or has ended, and once ended its verdict stands. -/
theorem state_of_execList_keepsRun {is : List Instr} {s t : State} (hk : ∀ i ∈ is, keepsRun i = true)
    (h : execList is s = .next t) : t.state = s.state ∨ s.state = .accumulating ∧ t.state.terminal = true := by
  induction is generalizing s with
  | nil => cases h; exact .inl rfl
  | cons i is ih =>
    obtain ⟨hi, his⟩ := List.forall_mem_cons.mp hk
    obtain ⟨u, hu, ht⟩ := execList_cons_eq_next h
    rcases state_of_exec_keepsRun hi hu with hsame | ⟨hs, hended⟩
    · rw [← hsame]
      exact ih his ht
    · rcases ih his ht with hstands | ⟨hu', -⟩
      · exact .inr ⟨hs, hstands ▸ hended⟩
      · rw [hu'] at hended
        cases hended

theorem tickCount_cons (i : Instr) (is : List Instr) : tickCount (i :: is) = tickCount is + tickCount [i] :=
  (List.countP_append (l₁ := [i])).trans (Nat.add_comm _ _)

theorem tickCount_singleton_of_ne {i : Instr} (hi : i ≠ .tick) : tickCount [i] = 0 :=
  List.countP_eq_zero.mpr (by simpa using hi)

/-- While a run goes on, `TIMER` counts its ticks. -/
theorem timer_of_exec_accumulating {i : Instr} {s t : State} (hs : s.state = .accumulating)
    (ht : t.state = .accumulating) (h : exec i s = .next t) : t.timer = s.timer + tickCount [i] := by
  by_cases hi : i = .tick
  · subst hi
    by_cases hlast : s.timer + 1 = Config.deadlineTicks
    · cases (exec_tick_at_deadline hs hlast).symm.trans h
      cases ht
    · cases (exec_tick_before_deadline hs hlast).symm.trans h
      rfl
  · rw [tickCount_singleton_of_ne hi]
    by_contra hne
    rcases timerMovesOnlyByTicks i s t h hne with ⟨htick, -⟩ | ⟨-, hns, -⟩ | ⟨rfl, -⟩
    · exact hi htick
    · exact hns hs
    · cases h
      cases ht

theorem timer_of_execList_accumulating {is : List Instr} {s t : State} (hk : ∀ i ∈ is, keepsRun i = true)
    (hs : s.state = .accumulating) (ht : t.state = .accumulating) (h : execList is s = .next t) :
    t.timer = s.timer + tickCount is := by
  induction is generalizing s with
  | nil => cases h; rfl
  | cons i is ih =>
    obtain ⟨hi, his⟩ := List.forall_mem_cons.mp hk
    obtain ⟨u, hu, htail⟩ := execList_cons_eq_next h
    have hrun : u.state = .accumulating := by
      rcases state_of_execList_keepsRun his htail with hsame | ⟨hacc, -⟩
      · exact hsame.symm.trans ht
      · exact hacc
    rw [ih his hrun htail, timer_of_exec_accumulating hs hrun hu, tickCount_cons i is]
    omega

/-! ## An infinite run -/

theorem Inv.presentAfter {s : State} (h : Inv s) (cs : List Cycle) : Inv (s.presentAfter cs) :=
  h.setPorts _ s.reply

theorem Run.inv (r : Run) (h : Inv (r.states 0)) (n : Nat) : Inv (r.states n) := by
  induction n with
  | zero => exact h
  | succ n ih => exact (ih.presentAfter _).step (r.steps n)

theorem fetch_eq_request {s s' : State} {q : Request} (h : fetch s = .request q s') :
    ∃ cs, s' = { s with inbox := cs } := by
  obtain ⟨cs, hf | ⟨q', hf⟩⟩ := fetch_changes_inbox s <;> cases hf.symm.trans h
  exact ⟨cs, rfl⟩

theorem timer_le_of_step_accumulating {s t : State} (hs : s.state = .accumulating) (ht : t.state = .accumulating)
    (h : step s = .next t) : s.timer ≤ t.timer := by
  obtain ⟨cs, rfl | ⟨i, hi⟩⟩ := step_next_cases h
  · exact Nat.le_refl _
  · exact Nat.le.intro (timer_of_exec_accumulating (s := { s with inbox := cs, reply := none }) hs ht hi).symm

theorem timer_of_step_takesTick {s t : State} (hs : s.state = .accumulating) (ht : t.state = .accumulating)
    (h : step s = .next t) (htick : takesTick s) : t.timer = s.timer + 1 := by
  obtain ⟨q, s', hf, hd⟩ := htick
  rw [step_of_instr hf hd] at h
  obtain ⟨cs, rfl⟩ := fetch_eq_request hf
  exact timer_of_exec_accumulating (s := { s with inbox := cs, reply := none }) hs ht h

/-- Where a run of the machine never leaves `Accumulating` again, `TIMER` never goes back. -/
theorem Run.timer_mono (r : Run) {N : Nat} (hN : ∀ n, N ≤ n → (r.states n).state = .accumulating) {n m : Nat}
    (hn : N ≤ n) (hm : n ≤ m) : (r.states n).timer ≤ (r.states m).timer := by
  induction m, hm using Nat.le_induction with
  | base => exact Nat.le_refl _
  | succ m hm ih =>
    have hstep : (r.states m).timer ≤ (r.states (m + 1)).timer :=
      timer_le_of_step_accumulating (s := r.presented m) (hN m (hn.trans hm)) (hN (m + 1) (by omega)) (r.steps m)
    exact ih.trans hstep

/-- There, fair ticks carry `TIMER` past every number: each next one is reached by waiting for one more tick. -/
theorem Run.exists_le_timer (r : Run) (hfair : r.FairTicks) {N : Nat}
    (hN : ∀ n, N ≤ n → (r.states n).state = .accumulating) (k : Nat) : ∃ n, N ≤ n ∧ k ≤ (r.states n).timer := by
  induction k with
  | zero => exact ⟨N, Nat.le_refl _, Nat.zero_le _⟩
  | succ k ih =>
    obtain ⟨n, hn, hk⟩ := ih
    obtain ⟨m, hm, htick⟩ := hfair ⟨N, hN⟩ n
    have hwait : (r.states n).timer ≤ (r.states m).timer := r.timer_mono hN hn hm
    have hstep : (r.states (m + 1)).timer = (r.states m).timer + 1 :=
      timer_of_step_takesTick (s := r.presented m) (hN m (hn.trans hm)) (hN (m + 1) (by omega)) (r.steps m) htick
    exact ⟨m + 1, by omega, by omega⟩

/-- Settles O36: a run still going on has counted all its ticks, and V3 keeps the count below the deadline. -/
theorem runEndsWithinTheDeadline : Obligations.RunEndsWithinTheDeadline := by
  refine ⟨fun s t is h hs hk he hticks => ?_, fun r h hfair N => ?_⟩
  · rcases state_of_execList_keepsRun hk he with hsame | ⟨-, hended⟩
    · have ht : t.state = .accumulating := hsame.trans hs
      have hcount : t.timer = s.timer + tickCount is := timer_of_execList_accumulating hk hs ht he
      have hlt : t.timer < Config.deadlineTicks := ((h.execList he).v3 ht).1
      omega
    · exact (RxState.terminal_iff _).mp hended
  · by_contra hno
    have hN : ∀ n, N ≤ n → (r.states n).state = .accumulating :=
      fun n hn => by_contra fun hne => hno ⟨n, hn, hne⟩
    obtain ⟨n, hn, hreached⟩ := r.exists_le_timer hfair hN Config.deadlineTicks
    exact absurd ((r.inv h n).v3 (hN n hn)).1 (Nat.not_lt_of_le hreached)

/-! ## A declared length no buffer can hold -/

/-- Not completed, and if a run is going on, its header is there and declares more than the buffer holds. -/
def NeverWhole (s : State) : Prop :=
  s.state ≠ .complete ∧
    (s.state = .accumulating → Config.hdrLen ≤ s.cnt ∧ ∃ total, s.bufferTotal = some total ∧ Config.maxFrame < total)

/-- A beat leaves the header, so the total, and fits below it. -/
theorem NeverWhole.rxDataOp {beatMax : Nat} {bytes : List Byte} {s t : State} (h : NeverWhole s)
    (he : rxDataOp beatMax bytes s = .next t) : NeverWhole t := by
  rcases rxDataOp_next he with ⟨-, rfl⟩ | ⟨hs, -, hfit, hcases⟩
  · exact h
  obtain ⟨h9, total, htotal, hbig⟩ := h.2 hs
  rw [← State.bufferTotal_appended h9 bytes] at htotal
  rcases hcases with ⟨rfl, -⟩ | ⟨total', -, htotal', hle, -⟩
  · exact ⟨h.1, fun _ => ⟨Nat.le_add_right_of_le h9, total, htotal, hbig⟩⟩
  · cases htotal.symm.trans htotal'
    omega

theorem NeverWhole.tickOp {deadline : Nat} {s : State} (h : NeverWhole s) : NeverWhole (tickOp deadline s) := by
  by_cases hs : s.state = .accumulating
  · rw [tickOp_inside hs]
    split
    · exact ⟨nofun, nofun⟩
    · exact h
  · rw [tickOp_outside hs]
    exact h

theorem NeverWhole.exec {i : Instr} {s t : State} (hi : keepsRun i = true) (h : NeverWhole s)
    (he : exec i s = .next t) : NeverWhole t := by
  obtain ⟨hreset, hstart⟩ := (keepsRun_iff i).mp hi
  rcases exec_next_cases he with ⟨hr, -⟩ | ⟨hr, -⟩ | ⟨bytes, -, hrx⟩ | ⟨-, rfl⟩ | ⟨-, ⟨-, rfl⟩ | ⟨-, rfl⟩⟩ |
    ⟨-, rfl⟩ | ⟨-, rfl⟩ | ⟨b, -, rfl⟩ | ⟨-, -, -, -, r, rfl⟩
  · exact absurd hr hreset
  · exact absurd hr hstart
  · exact h.rxDataOp hrx
  · exact h
  · exact ⟨nofun, nofun⟩
  · exact h
  · exact h.tickOp
  · exact h
  · exact h
  · exact h

/-- Settles O39: a total of 257 or more stays in the header and out of reach until the run ends otherwise. -/
theorem oversizedLengthNeverCompletes : Obligations.OversizedLengthNeverCompletes := by
  intro s t is l _ hs h9 hl hbig hk he
  have htotal : s.bufferTotal = some (5 + l.toNat) := by rw [State.bufferTotal, hl]
  have hinit : NeverWhole s := ⟨by simp [hs], fun _ => ⟨h9, _, htotal, show 256 < 5 + l.toNat by omega⟩⟩
  exact (execList_keeps (fun _ _ _ => NeverWhole.exec) hk hinit he).1

end Sys2Proof.Machine
end

section
/-! SUPPORT. O37: with a silent transport a run is nothing but its ticks (R120, P11). -/
namespace Sys2Proof.Machine

theorem tickOp_cnt_le (deadline : Nat) (s : State) : (tickOp deadline s).cnt ≤ s.cnt := by
  by_cases hs : s.state = .accumulating
  · rw [tickOp_inside hs]
    split
    · exact Nat.zero_le _
    · exact Nat.le_refl _
  · rw [tickOp_outside hs]

theorem tickOp_iterate_cnt_le (deadline n : Nat) (s : State) : ((tickOp deadline)^[n] s).cnt ≤ s.cnt := by
  induction n generalizing s with
  | zero => exact Nat.le_refl _
  | succ n ih => exact (ih _).trans (tickOp_cnt_le deadline s)

/-- Ticks that end before the deadline count and do nothing else. -/
theorem tickOp_iterate_of_lt {deadline n : Nat} {s : State} (hs : s.state = .accumulating)
    (h : s.timer + n < deadline) : (tickOp deadline)^[n] s = s.setTimer (s.timer + n) := by
  induction n generalizing s with
  | zero => rfl
  | succ n ih =>
    have hfirst : tickOp deadline s = s.setTimer (s.timer + 1) := (tickOp_inside hs).trans (if_neg (by omega))
    have hrest := ih (s := s.setTimer (s.timer + 1)) hs (by rw [State.setTimer_timer]; omega)
    rw [Function.iterate_succ_apply, hfirst, hrest, State.setTimer_timer, Nat.add_assoc, Nat.add_comm 1 n]
    rfl

/-- Ticks that reach the deadline end the run there, and those after it do nothing. -/
theorem tickOp_iterate_of_ge {deadline n : Nat} {s : State} (hs : s.state = .accumulating) (hlt : s.timer < deadline)
    (h : deadline ≤ s.timer + n) : (tickOp deadline)^[n] s = (s.setTimer deadline).endRun .timedOut := by
  induction n generalizing s with
  | zero => omega
  | succ n ih =>
    rw [Function.iterate_succ_apply, tickOp_inside hs]
    split
    · next hlast => rw [hlast, Function.iterate_fixed (tickOp_outside (by simp))]
    · exact ih hs (by rw [State.setTimer_timer]; omega) (by rw [State.setTimer_timer]; omega)

/-- With no header there, an empty beat is nothing. -/
theorem exec_rxData_nil {s : State} (h : s.cnt < Config.hdrLen) : exec (.rxData []) s = .next s := by
  by_cases hs : s.state = .accumulating
  · have hrx : exec (.rxData []) s = lengthTest s :=
      exec_rxData_of_fits hs (Nat.zero_le _) (show s.cnt ≤ 256 from (Nat.le_of_lt h).trans (by decide))
    exact hrx.trans (if_neg (Nat.not_le_of_lt h))
  · exact exec_rxData_outside hs []

theorem exec_silentOrTick {i : Instr} {s : State} (hi : silentOrTick i = true) (h : s.cnt < Config.hdrLen) :
    exec i s = .next ((tickOp Config.deadlineTicks)^[tickCount [i]] s) := by
  simp only [silentOrTick, Bool.or_eq_true, beq_iff_eq] at hi
  rcases hi with (rfl | rfl) | rfl
  · rfl
  · rfl
  · exact exec_rxData_nil h

/-- A silent list does as many ticks as it has. -/
theorem execList_silentOrTick {is : List Instr} {s : State} (hsilent : ∀ i ∈ is, silentOrTick i = true)
    (h : s.cnt < Config.hdrLen) : execList is s = .next ((tickOp Config.deadlineTicks)^[tickCount is] s) := by
  induction is generalizing s with
  | nil => rfl
  | cons i is ih =>
    obtain ⟨hi, his⟩ := List.forall_mem_cons.mp hsilent
    rw [execList_cons_of_next (exec_silentOrTick hi h), ih his ((tickOp_iterate_cnt_le _ _ s).trans_lt h),
      tickCount_cons i is, Function.iterate_add_apply]

/-- Settles O37: START, then as many ticks as the list has. -/
theorem silentRunTimesOutExactlyAtTheDeadline : Obligations.SilentRunTimesOutExactlyAtTheDeadline := by
  intro s is hs hsilent
  have hstart : exec .start s = .next s.beginRun := execStart_outside hs
  have hrun := execList_silentOrTick hsilent (s := s.beginRun) (Nat.succ_pos 8)
  rw [execList_cons_of_next hstart, hrun]
  refine ⟨_, rfl, Nat.le_zero.mp (tickOp_iterate_cnt_le _ _ s.beginRun), fun hlt => ?_, fun hge => ?_⟩
  · rw [tickOp_iterate_of_lt rfl (by simpa using hlt)]
    exact ⟨rfl, Nat.zero_add _⟩
  · rw [tickOp_iterate_of_ge rfl (Nat.succ_pos _) (by simpa using hge)]
    exact ⟨rfl, rfl⟩

end Sys2Proof.Machine
end

section
/-! SUPPORT. O51: the requests of a cycle, sorted by kind, and taken from the head of the order (R124). -/
namespace Sys2Proof.Machine

theorem mem_ofKind {k : RequestKind} {c : Cycle} {r : Request} : r ∈ ofKind k c ↔ r ∈ c ∧ Request.kind r = k := by
  rw [ofKind, List.mem_filter, beq_iff_eq]

theorem ofKind_eq_nil_iff {k : RequestKind} {c : Cycle} : ofKind k c = [] ↔ ∀ r ∈ c, Request.kind r ≠ k := by
  simp [ofKind]

theorem ofKind_append (k : RequestKind) (b c : Cycle) : ofKind k (b ++ c) = ofKind k b ++ ofKind k c :=
  List.filter_append ..

theorem ofKind_cons_same (r : Request) (c : Cycle) :
    ofKind (Request.kind r) (r :: c) = r :: ofKind (Request.kind r) c :=
  List.filter_cons_of_pos (beq_self_eq_true _)

theorem ofKind_cons_other {k : RequestKind} {r : Request} (h : Request.kind r ≠ k) (c : Cycle) :
    ofKind k (r :: c) = ofKind k c :=
  List.filter_cons_of_neg (by simpa using h)

theorem ofKind_ofKind (j k : RequestKind) (c : Cycle) : ofKind j (ofKind k c) = if j = k then ofKind k c else [] := by
  split
  · next h =>
    subst h
    exact List.filter_eq_self.mpr fun r hr => beq_iff_eq.mpr (mem_ofKind.mp hr).2
  · next h => exact ofKind_eq_nil_iff.mpr fun r hr hj => h (hj.symm.trans (mem_ofKind.mp hr).2)

theorem count_ofKind (k : RequestKind) (c : Cycle) (r : Request) :
    (ofKind k c).count r = if Request.kind r = k then c.count r else 0 := by
  split
  · next h => exact List.count_filter (beq_iff_eq.mpr h)
  · next h => exact List.count_eq_zero.mpr fun hr => h (mem_ofKind.mp hr).2

/-- The kinds of a cycle without RESET, in the order of R124. -/
def kindsInOrder : Config.SameCycleOrder → List RequestKind
  | .rxFirst => [.start, .transport, .tick, .other]
  | .tickFirst => [.start, .tick, .transport, .other]

theorem kindsInOrder_nodup (o : Config.SameCycleOrder) : (kindsInOrder o).Nodup := by
  cases o <;> decide

/-- The requests of a cycle, kind by kind. -/
def sortedBy (ks : List RequestKind) (c : Cycle) : Cycle := ks.flatMap (ofKind · c)

theorem sortedBy_cons (k : RequestKind) (ks : List RequestKind) (c : Cycle) :
    sortedBy (k :: ks) c = ofKind k c ++ sortedBy ks c :=
  List.flatMap_cons

theorem serialise_of_reset (o : Config.SameCycleOrder) {c : Cycle} (h : ofKind .reset c ≠ []) :
    ∃ r ∈ c, Request.kind r = .reset ∧ serialise o c = [r] := by
  obtain ⟨r, rs, hr⟩ := List.exists_cons_of_ne_nil h
  obtain ⟨hmem, hkind⟩ : r ∈ c ∧ Request.kind r = .reset := mem_ofKind.mp (hr ▸ List.mem_cons_self)
  exact ⟨r, hmem, hkind, by rw [serialise, hr]⟩

theorem serialise_of_no_reset (o : Config.SameCycleOrder) {c : Cycle} (h : ofKind .reset c = []) :
    serialise o c = ofKind .start c ++
      (if o = .rxFirst then ofKind .transport c ++ ofKind .tick c else ofKind .tick c ++ ofKind .transport c) ++
      ofKind .other c := by
  rw [serialise, h, orderTimed_eq, List.append_assoc]

theorem serialise_eq_sortedBy (o : Config.SameCycleOrder) {c : Cycle} (h : ofKind .reset c = []) :
    serialise o c = sortedBy (kindsInOrder o) c := by
  rw [serialise_of_no_reset o h]
  cases o <;> simp [sortedBy, kindsInOrder]

/-- Nothing is lost and nothing added: a request is counted under its own kind and no other. -/
theorem serialise_perm (o : Config.SameCycleOrder) {c : Cycle} (h : ofKind .reset c = []) : (serialise o c).Perm c := by
  rw [serialise_eq_sortedBy o h, List.perm_iff_count]
  intro r
  cases hk : Request.kind r with
  | reset =>
    have hr : c.count r = 0 := List.count_eq_zero.mpr fun hr => ofKind_eq_nil_iff.mp h r hr hk
    cases o <;> simp [sortedBy, kindsInOrder, count_ofKind, hk, hr]
  | start | transport | tick | other => cases o <;> simp [sortedBy, kindsInOrder, count_ofKind, hk]

/-- A request that is taken is one of the cycle. -/
theorem mem_of_mem_serialise {o : Config.SameCycleOrder} {c : Cycle} {r : Request} (h : r ∈ serialise o c) : r ∈ c := by
  by_cases hreset : ofKind .reset c = []
  · exact (serialise_perm o hreset).subset h
  · obtain ⟨q, hq, -, he⟩ := serialise_of_reset o hreset
    rw [he, List.mem_singleton] at h
    exact h ▸ hq

theorem sortedBy_idem (o : Config.SameCycleOrder) (c : Cycle) :
    sortedBy (kindsInOrder o) (sortedBy (kindsInOrder o) c) = sortedBy (kindsInOrder o) c := by
  cases o <;> simp [sortedBy, kindsInOrder, ofKind_append, ofKind_ofKind]

theorem sortedBy_cons_of_kind_notMem {ks : List RequestKind} {r : Request} (h : Request.kind r ∉ ks) (c : Cycle) :
    sortedBy ks (r :: c) = sortedBy ks c :=
  List.flatMap_congr fun _ hk => ofKind_cons_other (fun he => h (he ▸ hk)) c

/-- What is left of a sorted cycle is sorted. By induction on the kinds: the head is the first request of the first kind
there is one of. -/
theorem sortedBy_tail {ks : List RequestKind} (hks : ks.Nodup) {r : Request} {rs : Cycle}
    (h : sortedBy ks (r :: rs) = r :: rs) : sortedBy ks rs = rs := by
  induction ks with
  | nil => cases h
  | cons k ks ih =>
    obtain ⟨hk, hks⟩ := List.nodup_cons.mp hks
    rw [sortedBy_cons] at h ⊢
    by_cases hr : Request.kind r = k
    · subst hr
      rw [ofKind_cons_same, sortedBy_cons_of_kind_notMem hk] at h
      exact List.tail_eq_of_cons_eq h
    · rw [ofKind_cons_other hr] at h
      cases hfirst : ofKind k rs with
      | nil =>
        rw [hfirst] at h
        exact ih hks h
      | cons q qs =>
        rw [hfirst] at h
        obtain rfl : q = r := List.head_eq_of_cons_eq h
        exact absurd (mem_ofKind.mp (hfirst ▸ List.mem_cons_self)).2 hr

/-- What is left of a cycle once its first request is taken is taken in the order it is in. -/
theorem serialise_tail {o : Config.SameCycleOrder} {c : Cycle} {r : Request} {rs : Cycle}
    (h : serialise o c = r :: rs) : serialise o rs = rs := by
  by_cases hreset : ofKind .reset c = []
  · have hrs : ofKind .reset rs = [] := ofKind_eq_nil_iff.mpr fun q hq =>
      ofKind_eq_nil_iff.mp hreset q (mem_of_mem_serialise (h ▸ List.mem_cons_of_mem r hq))
    have hsorted : sortedBy (kindsInOrder o) (r :: rs) = r :: rs := by
      rw [← h, serialise_eq_sortedBy o hreset, sortedBy_idem]
    rw [serialise_eq_sortedBy o hrs]
    exact sortedBy_tail (kindsInOrder_nodup o) hsorted
  · obtain ⟨q, -, -, he⟩ := serialise_of_reset o hreset
    obtain rfl : [] = rs := List.tail_eq_of_cons_eq (he.symm.trans h)
    rfl

theorem serialise_ne_nil {o : Config.SameCycleOrder} {c : Cycle} (h : c ≠ []) : serialise o c ≠ [] := by
  by_cases hreset : ofKind .reset c = []
  · exact fun hnil => h (List.perm_nil.mp (hnil ▸ (serialise_perm o hreset).symm))
  · obtain ⟨q, -, -, he⟩ := serialise_of_reset o hreset
    exact he ▸ List.cons_ne_nil q []

/-- Settles O51: a cycle is its RESET or sorted by kind, and the fetch takes the head of that. -/
theorem cycleIsSerialisedInOrder : Obligations.CycleIsSerialisedInOrder := by
  refine ⟨fun o c => ⟨fun ⟨r, hr, hk⟩ => ?_, fun hno => ?_⟩, fun s c cs hin => ⟨fun hc => ?_, fun hc => ?_⟩⟩
  · exact serialise_of_reset o fun hnil => ofKind_eq_nil_iff.mp hnil r hr hk
  · have hreset : ofKind .reset c = [] := ofKind_eq_nil_iff.mpr hno
    exact ⟨serialise_perm o hreset, ofKind .other c, serialise_of_no_reset o hreset⟩
  · subst hc
    exact fetchWith_cons_nil _ hin rfl
  · obtain ⟨r, rs, hrs⟩ := List.exists_cons_of_ne_nil (serialise_ne_nil (o := Config.sameCycleOrder) hc)
    exact ⟨r, rs, hrs, serialise_tail hrs, fetchWith_cons _ hin hrs⟩

end Sys2Proof.Machine
end

section
/-! SUPPORT. O60: what a key means, as an equivalence per meaning; the registry's two directions and `describe` follow. -/
namespace Sys2Proof.Machine

/-- The two keys of a parameter command are those of its two variants (R65, R137). -/
theorem eq_setKey_or_readKey_iff {key : Half} {e : Config.ParamEntry} :
    key = e.setKey ∨ key = e.readKey ↔ ∃ v, key = paramKey v e := by
  constructor
  · rintro (h | h)
    · exact ⟨.set, h⟩
    · exact ⟨.read, h⟩
  · rintro ⟨v, h⟩
    cases v with
    | set => exact .inl h
    | read => exact .inr h

@[simp] theorem variantOf_paramKey (v : KeyVariant) (e : Config.ParamEntry) : variantOf (paramKey v e) = v := by
  cases v with
  | set => exact variantOf_setKey e
  | read => exact variantOf_readKey e

theorem keyMeaning_paramKey {e : Config.ParamEntry} (he : e ∈ Config.registry.params) (v : KeyVariant) :
    keyMeaning (paramKey v e) = .parameter v e := by
  rw [keyMeaning_param he (eq_setKey_or_readKey_iff.mpr ⟨v, rfl⟩), variantOf_paramKey]

theorem keyMeaning_eq_literal_iff {key : Half} {c : Config.LiteralCommand} :
    keyMeaning key = .literal c ↔ literalKey c = key := by
  constructor
  · intro h
    rcases keyMeaning_cases key with ⟨d, hd, hm⟩ | ⟨_, -, -, hm⟩ | ⟨-, -, hm⟩
    · exact KeyMeaning.literal.inj (hm.symm.trans h) ▸ hd
    · cases hm.symm.trans h
    · cases hm.symm.trans h
  · rintro rfl
    exact keyMeaning_literal c

theorem keyMeaning_eq_parameter_iff {key : Half} {v : KeyVariant} {e : Config.ParamEntry} :
    keyMeaning key = .parameter v e ↔ e ∈ Config.registry.params ∧ key = paramKey v e := by
  constructor
  · intro h
    rcases keyMeaning_cases key with ⟨_, -, hm⟩ | ⟨f, hf, hk, hm⟩ | ⟨-, -, hm⟩
    · cases hm.symm.trans h
    · obtain ⟨w, rfl⟩ := eq_setKey_or_readKey_iff.mp hk
      obtain ⟨rfl, rfl⟩ := KeyMeaning.parameter.inj ((keyMeaning_paramKey hf w).symm.trans h)
      exact ⟨hf, rfl⟩
    · cases hm.symm.trans h
  · rintro ⟨he, rfl⟩
    exact keyMeaning_paramKey he v

theorem keyMeaning_eq_unrecognized {key : Half} (hl : ∀ c, literalKey c ≠ key)
    (hp : ∀ e ∈ Config.registry.params, e.setKey ≠ key ∧ e.readKey ≠ key) : keyMeaning key = .unrecognized := by
  rcases keyMeaning_cases key with ⟨c, hc, -⟩ | ⟨e, he, hk, -⟩ | ⟨-, -, hm⟩
  · exact absurd hc (hl c)
  · obtain ⟨hset, hread⟩ := hp e he
    exact absurd hk (not_or.mpr ⟨hset.symm, hread.symm⟩)
  · exact hm

theorem commandOf_eq_literal_iff {key : Half} {c : Config.LiteralCommand} :
    commandOf key = some (.literal c) ↔ keyMeaning key = .literal c := by
  unfold commandOf
  cases keyMeaning key <;> simp

theorem commandOf_eq_parameter_iff {key : Half} {v : KeyVariant} {name : String} :
    commandOf key = some (.parameter v name) ↔ ∃ e, keyMeaning key = .parameter v e ∧ e.name = name := by
  unfold commandOf
  cases keyMeaning key <;> simp [and_assoc]

theorem wireKey_eq_parameter_iff {key : Half} {v : KeyVariant} {name : String} :
    wireKey (.parameter v name) = some key ↔ ∃ e ∈ Config.registry.params, e.name = name ∧ paramKey v e = key := by
  simp only [wireKey, Option.map_eq_some_iff, paramNamed_eq_some, and_assoc]

/-- The registry's two directions are inverse to each other (R135). -/
theorem commandOf_eq_some_iff_wireKey (key : Half) (c : Command) : commandOf key = some c ↔ wireKey c = some key := by
  cases c with
  | literal c => rw [commandOf_eq_literal_iff, keyMeaning_eq_literal_iff, wireKey, Option.some.injEq]
  | parameter v name =>
    rw [commandOf_eq_parameter_iff, wireKey_eq_parameter_iff]
    refine exists_congr fun e => ?_
    rw [keyMeaning_eq_parameter_iff, and_assoc, and_comm (a := key = paramKey v e), eq_comm (a := key)]

theorem commandOf_eq_of_paramKey {key : Half} {v : KeyVariant} {e : Config.ParamEntry}
    (he : e ∈ Config.registry.params) (hk : paramKey v e = key) : commandOf key = some (.parameter v e.name) :=
  (commandOf_eq_some_iff_wireKey _ _).mpr (wireKey_eq_parameter_iff.mpr ⟨e, he, rfl, hk⟩)

theorem describe_literalKey (c : Config.LiteralCommand) : describe (literalKey c) = Config.literalName c := by
  rw [describe, keyMeaning_literal]

theorem describe_paramKey {e : Config.ParamEntry} (he : e ∈ Config.registry.params) (v : KeyVariant) :
    describe (paramKey v e) = v.word ++ " " ++ e.name := by
  rw [describe, keyMeaning_paramKey he]

theorem describe_of_unrecognized {key : Half} (h : keyMeaning key = .unrecognized) :
    describe key = if key.getLsbD 15 then "read unk" else "set unk" := by
  rw [describe, h, variantOf, isReadKey]
  cases key.getLsbD 15 <;> rfl

/-- Settles O60: `describe` follows the meaning of a key, and that is the registry read from keys to commands. -/
theorem describeNamesEveryKey : Obligations.DescribeNamesEveryKey := by
  refine ⟨describe_literalKey, Config.registry.response_key, fun e he => ?_,
    fun key hl hp => describe_of_unrecognized (keyMeaning_eq_unrecognized hl hp), commandOf_eq_some_iff_wireKey, ?_,
    paramByte_eq_some⟩
  · exact ⟨describe_paramKey he .set, describe_paramKey he .read, setKey_toNat e, readKey_toNat e⟩
  · obtain ⟨e, he, hset⟩ := Config.registry.has_pattern
    have hread : e.readKey = 0x8062#16 := by rw [Config.ParamEntry.readKey, hset]; rfl
    exact ⟨e, he, hset, hread, commandOf_eq_of_paramKey he hset, commandOf_eq_of_paramKey he hread⟩

end Sys2Proof.Machine
end

section
/-! SUPPORT. O58 and O59: the strict table lookup, and how a packet is interpreted by the meaning of its key. -/
namespace Sys2Proof.Machine

theorem valueLabel_of_lt {table : List String} {raw : Nat} (h : raw < table.length) :
    valueLabel table raw = .label table[raw] := by
  rw [valueLabel, List.getElem?_eq_getElem h]

theorem valueLabel_of_ge {table : List String} {raw : Nat} (h : table.length ≤ raw) :
    valueLabel table raw = .indexOutOfRange := by
  rw [valueLabel, List.getElem?_eq_none h]

theorem interpret_of_literal {p : DecodedPacket} {c : Config.LiteralCommand} (h : p.commandKey = literalKey c) :
    interpret p = interpretLiteral c p.payload := by
  rw [interpret, h, keyMeaning_literal]

theorem interpret_of_param {p : DecodedPacket} {e : Config.ParamEntry} (he : e ∈ Config.registry.params)
    (hk : p.commandKey = e.setKey ∨ p.commandKey = e.readKey) : interpret p = interpretParameter e p.payload := by
  rw [interpret, keyMeaning_param he hk]

/-- Settles O58: the lookup by the two sides of the bound, and a parameter's packet by the first byte of its payload. -/
theorem valueLabelIsStrict : Obligations.ValueLabelIsStrict :=
  ⟨fun _ _ => ⟨valueLabel_of_ge, valueLabel_of_lt⟩, fun p e v rest he hk hpay =>
    calc interpret p
      _ = interpretParameter e p.payload := interpret_of_param he hk
      _ = .value (valueLabel (valueTable e.table) v.toNat) := by rw [hpay, interpretParameter]⟩

theorem responseOf_hi8_lo8 (key : Half) (status : Byte) :
    responseOf [hi8 key.toNat, lo8 key.toNat, status] = some (key, status) := by
  rw [responseOf, u16be_hi8_lo8]

theorem interpretLiteral_response {payload : List Byte} {key : Half} {status : Byte}
    (h : responseOf payload = some (key, status)) :
    interpretLiteral .response payload = .response key (valueLabel (valueTable .responseStatus) status.toNat) := by
  rw [interpretLiteral, h]

/-- Settles O59: the two bytes of a key assemble to it, high byte first, and 0xFFFF is the response's key. -/
theorem responsePayloadIsReadHighByteFirst : Obligations.ResponsePayloadIsReadHighByteFirst := by
  refine fun key status => ⟨responseOf_hi8_lo8 key status, valueLabel_of_lt (Nat.succ_pos _), fun p hk hpay => ?_⟩
  calc interpret p
    _ = interpretLiteral .response p.payload := interpret_of_literal (hk.trans Config.registry.response_key.symm)
    _ = _ := interpretLiteral_response (hpay ▸ responseOf_hi8_lo8 key status)

end Sys2Proof.Machine
end

section
/-! SUPPORT. O42, O43: at rest, only START and RESET touch the run; a verdict and its frame stand (R113, R161, R163). -/
namespace Sys2Proof.Machine

/-- Settles O43: of what an instruction can write, the cases that are open outside `Accumulating`. -/
theorem onlyStartAndResetLeaveARestState : Obligations.OnlyStartAndResetLeaveARestState := by
  intro i s t hrest he hmoved
  cases writesOf_exec he with
  | noneOfRun hstate => exact absurd hstate hmoved
  | reset ht => exact .inr ⟨rfl, ht ▸ rfl⟩
  | start _ ht => subst ht; exact .inl ⟨rfl, rfl, rfl, rfl⟩
  | beat _ hs => exact absurd hs hrest
  | error hs => exact absurd hs hrest
  | tick hs => exact absurd hs hrest

theorem RxState.ne_accumulating_of_terminal {x : RxState} (h : x.terminal = true) : x ≠ .accumulating := by
  rintro rfl
  cases h

/-- The fields of the reassembler's run agree; the streaming port and the model's own ports are left free. -/
structure SameRun (s t : State) : Prop where
  state : t.state = s.state
  cnt : t.cnt = s.cnt
  timer : t.timer = s.timer
  rxbuf : t.rxbuf = s.rxbuf

theorem SameRun.refl (s : State) : SameRun s s := ⟨rfl, rfl, rfl, rfl⟩

theorem SameRun.trans {s t u : State} (h : SameRun s t) (h' : SameRun t u) : SameRun s u :=
  ⟨h'.state.trans h.state, h'.cnt.trans h.cnt, h'.timer.trans h.timer, h'.rxbuf.trans h.rxbuf⟩

/-- RESULT is read from the run alone (R25). -/
theorem SameRun.result {s t : State} (h : SameRun s t) : t.result = s.result := by
  simp only [State.result, State.received, State.memRead, h.state, h.cnt, h.rxbuf]

/-- At rest, an instruction other than RESET and START writes at most `ACC` or the reply (R113). -/
theorem exec_at_rest {i : Instr} {s t : State} (hi : keepsRun i = true) (hrest : s.state ≠ .accumulating)
    (h : exec i s = .next t) : t = s ∨ (∃ b, t = s.setAcc b) ∨ ∃ r, t = s.answer r := by
  obtain ⟨hreset, hstart⟩ := (keepsRun_iff i).mp hi
  rcases exec_next_cases h with ⟨hr, -⟩ | ⟨hr, -⟩ | ⟨bytes, -, hrx⟩ | ⟨-, ht⟩ | ⟨-, ⟨hs, -⟩ | ⟨-, ht⟩⟩ | ⟨-, ht⟩ |
    ⟨-, ht⟩ | ⟨b, -, ht⟩ | ⟨-, -, -, -, hanswer⟩
  · exact absurd hr hreset
  · exact absurd hr hstart
  · rw [rxDataOp_outside bytes hrest] at hrx
    cases hrx
    exact .inl rfl
  · exact .inl ht
  · exact absurd hs hrest
  · exact .inl ht
  · exact .inl (ht.trans (tickOp_outside hrest))
  · exact .inr (.inl ⟨_, ht⟩)
  · exact .inr (.inl ⟨_, ht⟩)
  · exact .inr (.inr hanswer)

theorem SameRun.of_exec_at_rest {i : Instr} {s t : State} (hi : keepsRun i = true) (hrest : s.state ≠ .accumulating)
    (h : exec i s = .next t) : SameRun s t := by
  rcases exec_at_rest hi hrest h with rfl | ⟨b, rfl⟩ | ⟨r, rfl⟩
  · exact .refl t
  · exact ⟨rfl, rfl, rfl, rfl⟩
  · exact ⟨rfl, rfl, rfl, rfl⟩

/-- A state at rest stays the same run along the list, and so stays at rest for the instructions that follow. -/
theorem SameRun.of_execList_at_rest {is : List Instr} {s t : State} (hk : ∀ i ∈ is, keepsRun i = true)
    (hrest : s.state ≠ .accumulating) (h : execList is s = .next t) : SameRun s t :=
  execList_keeps (fun _ _ _ hi hsame he => hsame.trans (.of_exec_at_rest hi (hsame.state ▸ hrest) he)) hk (.refl s) h

/-- Settles O42: a terminal state is at rest, and its RESULT is read from the run that stays the same. -/
theorem firstVerdictStands : Obligations.FirstVerdictStands := by
  intro s t is hterminal hk h
  have hsame : SameRun s t := .of_execList_at_rest hk (RxState.ne_accumulating_of_terminal hterminal) h
  exact ⟨hsame.state, hsame.cnt, hsame.timer, hsame.rxbuf, hsame.result⟩

end Sys2Proof.Machine
end

section
/-! SUPPORT. O2: RESET from every state (R175). -/
namespace Sys2Proof.Machine

theorem exec_reset (s : State) : exec .reset s = .next s.toReset := rfl

@[simp] theorem State.toReset_result (s : State) : s.toReset.result = none :=
  State.result_of_not_complete (by simp)

@[simp] theorem State.toReset_readByte (s : State) (a : Nat) : s.toReset.readByte a = none :=
  State.readByte_of_cnt_zero s.toReset_cnt a

/-- Settles O2: `STATE` Idle leaves no RESULT, and `CNT` 0 leaves no byte that can be read. -/
theorem resetClearsAllButTheBuffer : Obligations.ResetClearsAllButTheBuffer :=
  fun s => ⟨s.toReset, exec_reset s, rfl, s.toReset_result, s.toReset_readByte⟩

end Sys2Proof.Machine
end
